-- ==== Sys2Proof/Syntax.lean ====
section
/-! DEFINITION. The commands of the engine, one constructor per row of spec/opcode_table.json (R51). A command is
one byte, all of it opcode; it has no field (R50). -/

namespace Sys2Proof

/-- The 14 commands (R51), in the order of their opcodes. -/
inductive Instr where
  /-- NOP (0x00, R140). -/
  | nop
  /-- KEY_CLEAR (0x01, R70). -/
  | keyClear
  /-- KEY_ABSORB (0x02, R71). -/
  | keyAbsorb
  /-- TBL_GEN (0x03, R80). -/
  | tblGen
  /-- ENCRYPT (0x04, R108). -/
  | encrypt
  /-- DECRYPT (0x05, R126). -/
  | decrypt
  /-- KEYMIX (0x06, R104). -/
  | keymix
  /-- SUB (0x07, R105). -/
  | sub
  /-- INVSUB (0x08, R124). -/
  | invsub
  /-- ROTL (0x09, R106). -/
  | rotl
  /-- ROTR (0x0A, R123). -/
  | rotr
  /-- ENC_ROUND (0x0B, R107). -/
  | encRound
  /-- DEC_ROUND (0x0C, R125). -/
  | decRound
  /-- ERR_CLEAR (0x0D, R141). -/
  | errClear
  deriving DecidableEq, Repr

end Sys2Proof
end

