-- ==== Sys2Proof/Word.lean ====
section
/-! DEFINITION. The word types of the SPN-64 engine: bytes, host addresses, the 64-bit view of the block, and
the 8-byte register files (BLOCK and KEY). -/

namespace Sys2Proof

/-- A byte, an unsigned 8-bit value (00_scope.md section 6). -/
abbrev Byte := BitVec 8

/-- A host address (R30: 16-bit byte addresses). -/
abbrev Addr := BitVec 16

/-- The block read as one 64-bit value (R5). -/
abbrev Quad := BitVec 64

/-- A file of 8 byte registers, as BLOCK and KEY are (R1, R2, R10, R13). -/
abbrev Bytes8 := Vector Byte 8

end Sys2Proof
end

