-- ==== Sys2Proof/Decode.lean ====
section
/-! DEFINITION. Decoding of the command byte (R50 to R52, R54), total on every byte: a command of R51, or an illegal
opcode rejected by name. After it the encoder, and the word of the opcode table's numbering. -/

namespace Sys2Proof

/-- What a command byte decodes to (R52). -/
inductive Decoded where
  /-- An opcode in 0x00 to 0x0D: the command named there by R51. -/
  | command (i : Instr)
  /-- Every other opcode, 0x0E to 0xFF, is illegal (R52, R54): the engine step raises Error(ILLEGAL). -/
  | illegal (opcode : Byte)
  deriving DecidableEq, Repr

/-- Exact match of the byte against R51's table (R52). -/
def decode (b : Byte) : Decoded :=
  match b.toNat with
  | 0x00 => .command .nop
  | 0x01 => .command .keyClear
  | 0x02 => .command .keyAbsorb
  | 0x03 => .command .tblGen
  | 0x04 => .command .encrypt
  | 0x05 => .command .decrypt
  | 0x06 => .command .keymix
  | 0x07 => .command .sub
  | 0x08 => .command .invsub
  | 0x09 => .command .rotl
  | 0x0A => .command .rotr
  | 0x0B => .command .encRound
  | 0x0C => .command .decRound
  | 0x0D => .command .errClear
  | _ => .illegal b

/-- The opcode of a command (R51's table), the byte the host writes to CMD. -/
def encode (i : Instr) : Byte :=
  match i with
  | .nop => 0x00
  | .keyClear => 0x01
  | .keyAbsorb => 0x02
  | .tblGen => 0x03
  | .encrypt => 0x04
  | .decrypt => 0x05
  | .keymix => 0x06
  | .sub => 0x07
  | .invsub => 0x08
  | .rotl => 0x09
  | .rotr => 0x0A
  | .encRound => 0x0B
  | .decRound => 0x0C
  | .errClear => 0x0D

/-- The command byte that the opcode table's word `w` of `nbits` bits stands for: its first byte, the bits from
`nbits` up being 0. A command is one byte, so later bytes of the word belong to no command (R50). -/
def tableByte (nbits w : Nat) : Byte :=
  BitVec.ofNat 8 (w % 2 ^ nbits)

/-- The command this decoder reads from the opcode table's word. -/
def decodeTableWord (nbits w : Nat) : Option Instr :=
  match decode (tableByte nbits w) with
  | .command i => some i
  | .illegal _ => none

end Sys2Proof
end

