-- ==== Sys2Proof/Config.lean ====
section
/-! DEFINITION. What the hardware fixes (00_scope.md section 4) and the free values: constants without a body,
so that no proof can know them. -/

namespace Sys2Proof

/-- ROUNDS: both ENCRYPT and DECRYPT apply exactly 16 rounds (R3). -/
def Config.rounds : Nat := 16

/-- DRAWS_PER_GEN: the draws of a complete TBL_GEN, 7 tables of 255 draws (R85). -/
def Config.drawsPerGen : Nat := 7 * 255

/-- A free value: the byte that a host read answering `any` returns (R34, R35, R36), and each table byte left
unspecified by an RNG error (R86). Its argument is `State.freeCtr`, so that no law relates two of them. -/
opaque Config.freeByte : Nat → Byte

/-- A free value: the answer of the random source to draw number `asked` with bound `bound` (R83, the OPEN
parameter RandomSource), where `State.rng` lists no further answer. -/
opaque Config.randomByte : (asked : Nat) → (bound : Nat) → Byte

end Sys2Proof
end

