-- ==== Sys2Proof/Machine/State.lean ====
section
/-! DEFINITION. The state of the machine: the engine's registers and table memory (10_state.md), the other two
agents' plain data (the host's script and the random source's answers), and the interleaving still to come.
The reasons a step can stop, and the state after reset (R171). -/

namespace Sys2Proof.Machine

/-- The direction of a table of a pair (R4, R36: dir = a[8]). -/
inductive Dir where
  /-- An encryption table E[p] (dir = 0). -/
  | enc
  /-- A decryption table D[p] (dir = 1). -/
  | dec
  deriving DecidableEq, Repr

/-- The error causes of R150. Code 7 is reserved and never produced, so it has no constructor. -/
inductive ErrCode where
  /-- 1: the latch holds an opcode in 0x0E to 0xFF. -/
  | illegal
  /-- 2: KVALID = 0. -/
  | nokey
  /-- 3: TVALID = 0. -/
  | notables
  /-- 4: BVALID = 0. -/
  | noblock
  /-- 5: a draw of TBL_GEN was out of range. -/
  | rng
  /-- 6: a host write to CMD, ARG or BLOCK while BUSY = 1. -/
  | busy
  deriving DecidableEq, Repr

/-- Which flags a command needs (the "raised by" column of R150). -/
structure Needs where
  /-- needs KVALID, else NOKEY. -/
  key : Bool
  /-- needs TVALID, else NOTABLES. -/
  tables : Bool
  /-- needs BVALID, else NOBLOCK. -/
  block : Bool
  deriving DecidableEq, Repr

/-- What a host address names (R31's register map, one constructor per kind of row). -/
inductive HostReg where
  /-- 0x0000. -/
  | cmd
  /-- 0x0001. -/
  | arg
  /-- 0x0002. -/
  | status
  /-- 0x0003. -/
  | kptr
  /-- 0x0004. -/
  | bwr
  /-- 0x0008 + p. -/
  | block (p : Fin 8)
  /-- 0x0010 + p. -/
  | key (p : Fin 8)
  /-- 0x1000 + 0x200 p + 0x100 dir + x (R36). -/
  | table (p : Fin 8) (dir : Dir) (x : Byte)
  /-- every other address (R37). -/
  | reserved
  deriving DecidableEq, Repr

/-- A statement of a host script (R56; `check` is R57's). Labels are numbers. -/
inductive HostStmt where
  /-- `wr addr, byte`: one host write. -/
  | wr (addr : Addr) (v : Byte)
  /-- `rd addr`: one host read, its value recorded. -/
  | rd (addr : Addr)
  /-- `cmd MNEMONIC`: a host write of the opcode to CMD. -/
  | cmd (i : Instr)
  /-- `label:` a place a `bnz` can go to; no transaction. -/
  | label (l : Nat)
  /-- `bnz label, addr, mask`: read addr; if value and mask have a common bit, continue at label. -/
  | bnz (l : Nat) (addr : Addr) (mask : Byte)
  /-- `check`: read STATUS; the script fails if bits 6:4 are not 0 (R57). -/
  | check
  deriving DecidableEq, Repr

/-- The host agent: its script, where it stands in it, and the values its reads returned (R56, R180). -/
structure HostAgent where
  /-- the script it performs. -/
  script : List HostStmt
  /-- the index of its next statement; past the end, it makes no further access. -/
  pos : Nat
  /-- a `check` has failed (R57): it makes no further access. -/
  failed : Bool
  /-- address and value of every read so far, oldest first (R180's observation). -/
  reads : List (Addr × Byte)
  deriving DecidableEq, Repr

/-- The random source (R83, R160): the answers it will give, oldest first, and how many draws it has answered.
When no answer is listed, the answer is the free value `Config.randomByte`. -/
structure RandomSource where
  /-- answers still to come. -/
  answers : List Byte
  /-- MODEL'S OWN: draws answered so far. -/
  asked : Nat
  deriving DecidableEq, Repr

/-- Who moves next (R43, R170, R176). -/
inductive Turn where
  /-- the host performs its next statement. -/
  | host
  /-- the engine takes its step, if it has one. -/
  | engine
  /-- the reset input is asserted. -/
  | reset
  deriving DecidableEq, Repr

/-- Table memory: the bytes of E[1..7] and D[1..7] (R16), keyed by their window address (R36), 0x1200 to 0x1FFF, in
the canonical form `Memory.wf`. -/
abbrev Memory := List Host.Cell

/-- The state of the machine. The fields down to `err` are the engine's (10_state.md section 1); table pair 0 is
hardwired and has no storage (R17); BVALID and STATUS are views (R12, R23); the sequencing state of R25 is not
architectural. -/
structure State where
  /-- BLOCK[0..7] (R10). -/
  block : Bytes8
  /-- BWR, the block-written mask (R11). -/
  bwr : BitVec 8
  /-- KEY[0..7] (R13). -/
  key : Bytes8
  /-- KPTR (R14). -/
  kptr : BitVec 3
  /-- KVALID (R15). -/
  kvalid : Bool
  /-- E[1..7] and D[1..7] (R16). -/
  tables : Memory
  /-- TVALID (R18). -/
  tvalid : Bool
  /-- ARG (R19). -/
  arg : Byte
  /-- LCMD, the latch of the pending command (R20). -/
  lcmd : Byte
  /-- BUSY (R21). -/
  busy : Bool
  /-- ERR, the sticky first error code (R22). -/
  err : BitVec 3
  /-- the host agent. -/
  host : HostAgent
  /-- who moves next, oldest first: the interleaving still to come (R43). -/
  sched : List Turn
  /-- the random source. -/
  rng : RandomSource
  /-- MODEL'S OWN: how many free values have been used (see `Config.freeByte`). -/
  freeCtr : Nat
  deriving DecidableEq, Repr

/-- Why the machine stops. No command and no host access stops it. -/
inductive Fault where
  /-- Raised by the host's turn when a taken `bnz` names a label that the script does not have: R56 gives such a
  script no meaning. Safe: the model stops. -/
  | missingLabel (l : Nat)
  deriving DecidableEq, Repr

/-- Why the model refuses to go on. -/
inductive Refusal where
  /-- Raised by `exec` alone, for an instruction that has no meaning yet (none is left). Safe: the model stops. -/
  | notModelled (mnemonic : String)
  deriving DecidableEq, Repr

/-- The machine right after reset (R171). BLOCK, KEY and the tables are unspecified there: the zeros below are the
model's DESIGN CHOICE (log entries 1 and 2). The host has no script, no interleaving and no random answer is
listed: they are loaded from outside (log entries 3, 4, 5). -/
def State.reset : State where
  block := #v[0, 0, 0, 0, 0, 0, 0, 0]
  bwr := 0x00
  key := #v[0, 0, 0, 0, 0, 0, 0, 0]
  kptr := 0
  kvalid := false
  tables := []
  tvalid := false
  arg := 0x00
  lcmd := 0x00
  busy := false
  err := 0
  host := { script := [], pos := 0, failed := false, reads := [] }
  sched := []
  rng := { answers := [], asked := 0 }
  freeCtr := 0

end Sys2Proof.Machine
end

