-- ==== Sys2Proof/Machine/Flags.lean ====
section
/-! DEFINITION. The flags: the error codes (R150), BVALID (R12), STATUS (R23) and the precondition checks of the
commands in their fixed order (R154). -/

namespace Sys2Proof.Machine

/-- The 3-bit code of an error (R150). -/
def ErrCode.code (c : ErrCode) : BitVec 3 :=
  match c with
  | .illegal => 1
  | .nokey => 2
  | .notables => 3
  | .noblock => 4
  | .rng => 5
  | .busy => 6

/-- BVALID: every block byte has been written by the host since reset (R12). -/
def State.bvalid (s : State) : Bool :=
  s.bwr == 0xFF

/-- STATUS = {0, ERR[2:0], BVALID, TVALID, KVALID, BUSY} (R23). -/
def State.status (s : State) : Byte :=
  0#1 ++ s.err ++ BitVec.ofBool s.bvalid ++ BitVec.ofBool s.tvalid ++ BitVec.ofBool s.kvalid ++ BitVec.ofBool s.busy

/-- The first error that applies to a command with these needs, in the order NOKEY, NOTABLES, NOBLOCK (R154). -/
def firstError (n : Needs) (s : State) : Option ErrCode :=
  if n.key && !s.kvalid then some .nokey
  else if n.tables && !s.tvalid then some .notables
  else if n.block && !s.bvalid then some .noblock
  else none

end Sys2Proof.Machine
end

