-- ==== Sys2Proof/Machine/Operands.lean ====
section
/-! DEFINITION. The operands: the bytes of BLOCK and KEY, the 64-bit view of the block (R5), the key position KPTR
names (R14), KEY_ABSORB's ARG (R53), the address of a table entry (R36) and what a host address names (R31). -/

namespace Sys2Proof.Machine

/-- `BLOCK[p]`, `KEY[p]` (00_scope.md section 6). -/
def byteAt (b : Bytes8) (p : Fin 8) : Byte :=
  b.get p

/-- `BLOCK[p] <- v`, `KEY[p] <- v`. -/
def setByte (b : Bytes8) (p : Fin 8) (v : Byte) : Bytes8 :=
  b.set p.val v p.isLt

/-- The register file whose byte p is `f p`, for p in 0..7. -/
def bytes8 (f : Fin 8 → Byte) : Bytes8 :=
  #v[f 0, f 1, f 2, f 3, f 4, f 5, f 6, f 7]

/-- `Block64()`: byte 0 most significant (R5). -/
def block64 (b : Bytes8) : Quad :=
  byteAt b 0 ++ byteAt b 1 ++ byteAt b 2 ++ byteAt b 3 ++ byteAt b 4 ++ byteAt b 5 ++ byteAt b 6 ++ byteAt b 7

/-- `SetBlock64(v)`: byte p is v[63 - 8p : 56 - 8p] (R5). -/
def ofBlock64 (v : Quad) : Bytes8 :=
  bytes8 fun p => v.extractLsb' (56 - 8 * p.val) 8

/-- The key position that KPTR names (R14). -/
def keyIndex (k : BitVec 3) : Fin 8 :=
  ⟨k.toNat, k.isLt⟩

/-- The passphrase byte: ARG, unextended (R53). -/
def State.passByte (s : State) : Byte :=
  s.arg

/-- Bit 8 of a window address (R36). -/
def Dir.bit (d : Dir) : Nat :=
  match d with
  | .enc => 0
  | .dec => 1

/-- The window address of entry 0 of a table: 0x1000 + 0x200 p + 0x100 dir (R36). -/
def tableBase (p : Fin 8) (d : Dir) : Nat :=
  0x1000 + 0x200 * p.val + 0x100 * d.bit

/-- The window address of entry x (R36). -/
def tableAddr (p : Fin 8) (d : Dir) (x : Byte) : Nat :=
  tableBase p d + x.toNat

/-- What an address of the table window names: p = a[11:9], dir = a[8], x = a[7:0] (R36). -/
def windowEntry (a : Addr) : HostReg :=
  .table ⟨a.toNat / 0x200 % 8, Nat.mod_lt _ (by decide)⟩ (if a.getLsbD 8 then .dec else .enc) (a.setWidth 8)

/-- The register map of R31. -/
def hostReg (a : Addr) : HostReg :=
  if a.toNat = 0x0000 then .cmd
  else if a.toNat = 0x0001 then .arg
  else if a.toNat = 0x0002 then .status
  else if a.toNat = 0x0003 then .kptr
  else if a.toNat = 0x0004 then .bwr
  else if 0x0008 ≤ a.toNat ∧ a.toNat < 0x0010 then .block ⟨a.toNat % 8, Nat.mod_lt _ (by decide)⟩
  else if 0x0010 ≤ a.toNat ∧ a.toNat < 0x0018 then .key ⟨a.toNat % 8, Nat.mod_lt _ (by decide)⟩
  else if 0x1000 ≤ a.toNat ∧ a.toNat < 0x2000 then windowEntry a
  else .reserved

end Sys2Proof.Machine
end

