-- ==== Sys2Proof/Machine/Ops.lean ====
section
/-! DEFINITION. The named operations over registers and table memory; recording an error, which is all this machine
has of taking an exception (R152, R155), and clearing it; running a command behind its checks; free values; the
random source's answers. -/

namespace Sys2Proof.Machine

/-! ## Named updates, one per register or group that the rules write together -/

/-- Write BLOCK (R10). -/
def State.setBlock (s : State) (b : Bytes8) : State :=
  { s with block := b }

/-- Write KEY, KPTR and KVALID (R70, R71). -/
def State.setKey (s : State) (k : Bytes8) (p : BitVec 3) (v : Bool) : State :=
  { s with key := k, kptr := p, kvalid := v }

/-- Write the table memory and TVALID (R80). -/
def State.setTables (s : State) (m : Memory) (v : Bool) : State :=
  { s with tables := m, tvalid := v }

/-- Write ERR. -/
def State.setErr (s : State) (e : BitVec 3) : State :=
  { s with err := e }

/-- Write ARG (R19). -/
def State.setArg (s : State) (v : Byte) : State :=
  { s with arg := v }

/-- `LCMD <- v; BUSY <- 1` (R32). -/
def State.latch (s : State) (v : Byte) : State :=
  { s with lcmd := v, busy := true }

/-- `BLOCK[p] <- v; BWR[p] <- 1` (R11, R32). -/
def State.loadByte (s : State) (p : Fin 8) (v : Byte) : State :=
  { s with block := setByte s.block p v, bwr := s.bwr ||| BitVec.twoPow 8 p.val }

/-- `BUSY <- 0`, the end of the engine step (R176). -/
def State.clearBusy (s : State) : State :=
  { s with busy := false }

/-- Move the random source on. -/
def State.setRng (s : State) (r : RandomSource) : State :=
  { s with rng := r }

/-- Move the free-value counter on. -/
def State.setFreeCtr (s : State) (n : Nat) : State :=
  { s with freeCtr := n }

/-- Move the host agent on. -/
def State.setHost (s : State) (h : HostAgent) : State :=
  { s with host := h }

/-- Use up the first turn of the interleaving. -/
def State.popTurn (s : State) : State :=
  { s with sched := s.sched.tail }

/-! ## Errors -/

/-- Record an error (R152): ERR keeps the first since the last reset or ERR_CLEAR. This is all that raising an error
does to the state: no trap is taken (R155). -/
def raiseError (c : ErrCode) (s : State) : State :=
  if s.err = 0 then s.setErr c.code else s

/-- The one way back to ERR = 0 but reset (R156, R141). -/
def clearError (s : State) : State :=
  s.setErr 0

/-- Run a command behind its checks: the first error that applies is recorded and nothing else changes (R153, R154). -/
def runChecked (n : Needs) (act : State → State) (s : State) : State :=
  match firstError n s with
  | some c => raiseError c s
  | none => act s

/-- The engine step on an illegal opcode, before it clears BUSY (R52). -/
def illegalCommand (s : State) : State :=
  raiseError .illegal s

/-- The end of the engine step: `BUSY <- 0`, whatever the command did (R176). -/
def finishCommand (o : Host.Outcome State Fault Refusal) : Host.Outcome State Fault Refusal :=
  match o with
  | .next s => .next s.clearBusy
  | .fault f => .fault f
  | .refused r => .refused r

/-! ## Table memory -/

/-- What an unlisted byte of table memory reads as. DESIGN CHOICE: the spec leaves the tables unspecified at reset
(R16, R171); no command and no host read sees a byte before TBL_GEN has written it (log entry 2). -/
def Memory.unlisted : Byte := 0

/-- One past the last address of table memory, D[7][255] being at 0x1FFF (R36). -/
def Memory.limit : Nat := 0x2000

/-- Addresses strictly rising from `lo` on and below the limit, and no entry equal to what an unlisted byte reads as. -/
def Memory.risingFrom : Nat → Memory → Bool
  | _, [] => true
  | lo, (a, v) :: rest =>
    decide (lo ≤ a) && decide (a < Memory.limit) && decide (v ≠ Memory.unlisted) && Memory.risingFrom (a + 1) rest

/-- The canonical form of table memory: E[1] begins at 0x1200. -/
def Memory.wf (m : Memory) : Bool :=
  Memory.risingFrom 0x1200 m

/-- Read one byte. -/
def Memory.read : Memory → Nat → Byte
  | [], _ => Memory.unlisted
  | (b, v) :: rest, a => if a = b then v else Memory.read rest a

/-- The cells of consecutive bytes from an address on, those that read as unlisted left out. -/
def Memory.cells : Nat → List Byte → Memory
  | _, [] => []
  | a, v :: vs => if v = Memory.unlisted then Memory.cells (a + 1) vs else (a, v) :: Memory.cells (a + 1) vs

/-- Write consecutive bytes from an address on. -/
def Memory.store (m : Memory) (a : Nat) (vs : List Byte) : Memory :=
  m.filter (fun c => decide (c.1 < a)) ++ Memory.cells a vs ++ m.filter (fun c => decide (a + vs.length ≤ c.1))

/-- `E[p][x]` and `D[p][x]` (R46): table pair 0 is the hardwired identity (R17). -/
def State.entry (s : State) (d : Dir) (p : Fin 8) (x : Byte) : Byte :=
  if p = 0 then x else Memory.read s.tables (tableAddr p d x)

/-! ## Free values and random answers -/

/-- `any`: a free value (00_scope.md section 6). -/
def drawAny (s : State) : Byte × State :=
  (Config.freeByte s.freeCtr, s.setFreeCtr (s.freeCtr + 1))

/-- Leave E[1..7] and D[1..7] unspecified, TVALID being 0 (R86): every byte a free value of its own. -/
def spoilTables (s : State) : State :=
  (s.setTables (Memory.store s.tables 0x1200 ((List.range 0xE00).map fun k => Config.freeByte (s.freeCtr + k)))
    false).setFreeCtr (s.freeCtr + 0xE00)

/-- The source's answer to a draw with a bound (R83): the next listed answer, or a free value. -/
def answer (r : RandomSource) (bound : Nat) : Byte × RandomSource :=
  match r.answers with
  | j :: rest => (j, { answers := rest, asked := r.asked + 1 })
  | [] => (Config.randomByte r.asked bound, { answers := [], asked := r.asked + 1 })

end Sys2Proof.Machine
end

