-- ==== Sys2Proof/Machine/Control.lean ====
section
/-! DEFINITION. The control commands (44_control.md): NOP, ERR_CLEAR. -/

namespace Sys2Proof.Machine

/-- NOP (R140): no effect; the engine step clears BUSY. -/
def execNop (s : State) : Host.Outcome State Fault Refusal :=
  .next s

/-- ERR_CLEAR (R141): ERR <- 0. -/
def execErrClear (s : State) : Host.Outcome State Fault Refusal :=
  .next (clearError s)

end Sys2Proof.Machine
end

