-- ==== Sys2Proof/Machine/Encrypt.lean ====
section
/-! DEFINITION. The encrypt path (42_encrypt.md): the round steps KeyMix, Sub, RotL, the round EncRound, and the commands
KEYMIX, SUB, ROTL, ENC_ROUND, ENCRYPT. -/

namespace Sys2Proof.Machine

/-- `KeyMix()` (R100): BLOCK[p] <- BLOCK[p] ^ KEY[p]. -/
def keyMix (key b : Bytes8) : Bytes8 :=
  bytes8 fun p => byteAt b p ^^^ byteAt key p

/-- `Sub()` (R101): BLOCK[p] <- E[p][BLOCK[p]]; and `InvSub()` (R121) with D for E. -/
def substitute (lookup : Fin 8 → Byte → Byte) (b : Bytes8) : Bytes8 :=
  bytes8 fun p => lookup p (byteAt b p)

/-- `RotL()` (R102), the byte-level procedure: every byte shifted left by 1, with the captured most significant bit of
the next byte (of byte 0 for byte 7) as its new least significant bit. -/
def rotL (b : Bytes8) : Bytes8 :=
  bytes8 fun p => byteAt b p <<< 1 ||| (BitVec.ofBool (byteAt b (p + 1)).msb).setWidth 8

/-- `EncRound()` (R103): KeyMix, Sub, RotL. -/
def encRound (s : State) (b : Bytes8) : Bytes8 :=
  rotL (substitute (s.entry .enc) (keyMix s.key b))

/-- KEYMIX (R104). -/
def execKeymix (s : State) : Host.Outcome State Fault Refusal :=
  .next (runChecked { key := true, tables := false, block := true } (fun s => s.setBlock (keyMix s.key s.block)) s)

/-- SUB (R105). -/
def execSub (s : State) : Host.Outcome State Fault Refusal :=
  .next (runChecked { key := false, tables := true, block := true }
    (fun s => s.setBlock (substitute (s.entry .enc) s.block)) s)

/-- ROTL (R106). -/
def execRotl (s : State) : Host.Outcome State Fault Refusal :=
  .next (runChecked { key := false, tables := false, block := true } (fun s => s.setBlock (rotL s.block)) s)

/-- ENC_ROUND (R107). -/
def execEncRound (s : State) : Host.Outcome State Fault Refusal :=
  .next (runChecked { key := true, tables := true, block := true } (fun s => s.setBlock (encRound s s.block)) s)

/-- ENCRYPT (R108): 16 encryption rounds with the same key and tables (R3). -/
def execEncrypt (s : State) : Host.Outcome State Fault Refusal :=
  .next (runChecked { key := true, tables := true, block := true }
    (fun s => s.setBlock ((encRound s)^[Config.rounds] s.block)) s)

end Sys2Proof.Machine
end

