-- ==== Sys2Proof/Machine/Decrypt.lean ====
section
/-! DEFINITION. The decrypt path (43_decrypt.md): the inverse steps RotR and InvSub, the round DecRound, and the commands
ROTR, INVSUB, DEC_ROUND, DECRYPT. KeyMix and the substitution are those of Encrypt.lean. -/

namespace Sys2Proof.Machine

/-- `RotR()` (R120), the byte-level procedure: every byte shifted right by 1, with the captured least significant bit of
the byte before (of byte 7 for byte 0) as its new most significant bit. -/
def rotR (b : Bytes8) : Bytes8 :=
  bytes8 fun p => byteAt b p >>> 1 ||| (BitVec.ofBool ((byteAt b (p + 7)).getLsbD 0)).setWidth 8 <<< 7

/-- `DecRound()` (R122): RotR, InvSub, KeyMix. -/
def decRound (s : State) (b : Bytes8) : Bytes8 :=
  keyMix s.key (substitute (s.entry .dec) (rotR b))

/-- ROTR (R123). -/
def execRotr (s : State) : Host.Outcome State Fault Refusal :=
  .next (runChecked { key := false, tables := false, block := true } (fun s => s.setBlock (rotR s.block)) s)

/-- INVSUB (R124). -/
def execInvsub (s : State) : Host.Outcome State Fault Refusal :=
  .next (runChecked { key := false, tables := true, block := true }
    (fun s => s.setBlock (substitute (s.entry .dec) s.block)) s)

/-- DEC_ROUND (R125). -/
def execDecRound (s : State) : Host.Outcome State Fault Refusal :=
  .next (runChecked { key := true, tables := true, block := true } (fun s => s.setBlock (decRound s s.block)) s)

/-- DECRYPT (R126): 16 decryption rounds with the same key and tables (R3). -/
def execDecrypt (s : State) : Host.Outcome State Fault Refusal :=
  .next (runChecked { key := true, tables := true, block := true }
    (fun s => s.setBlock ((decRound s)^[Config.rounds] s.block)) s)

end Sys2Proof.Machine
end

