-- ==== Sys2Proof/Machine/KeyDeriver.lean ====
section
/-! DEFINITION. The key deriver (40_key_deriver.md): KEY_CLEAR, KEY_ABSORB. -/

namespace Sys2Proof.Machine

/-- The all-zero key, where a derivation starts (R70). -/
def clearKey (s : State) : State :=
  s.setKey (bytes8 fun _ => 0x00) 0 true

/-- `KEY[KPTR] <- KEY[KPTR] ^ ARG; KPTR <- (KPTR + 1) mod 8` (R71). -/
def absorbByte (s : State) : State :=
  s.setKey (setByte s.key (keyIndex s.kptr) (byteAt s.key (keyIndex s.kptr) ^^^ s.passByte)) (s.kptr + 1) s.kvalid

/-- KEY_CLEAR (R70). -/
def execKeyClear (s : State) : Host.Outcome State Fault Refusal :=
  .next (clearKey s)

/-- KEY_ABSORB (R71): NOKEY when KVALID = 0. -/
def execKeyAbsorb (s : State) : Host.Outcome State Fault Refusal :=
  .next (runChecked { key := true, tables := false, block := false } absorbByte s)

end Sys2Proof.Machine
end

