-- ==== Sys2Proof/Machine/TableFactory.lean ====
section
/-! DEFINITION. The table factory (41_table_factory.md): the Fisher-Yates shuffle (R82), the inversion (R84) and
TBL_GEN (R80). Shuffle and inversion are internal procedures, not commands. -/

namespace Sys2Proof.Machine

/-- The identity sequence of 256 values, where every shuffle starts (R82). -/
def identityTable : List Byte :=
  (List.range 256).map (BitVec.ofNat 8)

/-- `tmp <- A[i]; A[i] <- A[j]; A[j] <- tmp` (R82). -/
def swapEntries (A : List Byte) (i j : Nat) : List Byte :=
  (A.set i (A.getD j 0)).set j (A.getD i 0)

/-- The shuffle's loop with the bound counting down to 1 (R82); a draw above its bound ends it with none, Error(RNG)
(R83). -/
def shuffleFrom : Nat → List Byte → RandomSource → Option (List Byte) × RandomSource
  | 0, A, r => (some A, r)
  | i + 1, A, r =>
    if (answer r (i + 1)).1.toNat > i + 1 then (none, (answer r (i + 1)).2)
    else shuffleFrom i (swapEntries A (i + 1) (answer r (i + 1)).1.toNat) (answer r (i + 1)).2

/-- `Shuffle(t)` (R82): from the identity, bounds 255 down to 1. -/
def shuffle (r : RandomSource) : Option (List Byte) × RandomSource :=
  shuffleFrom 255 identityTable r

/-- `Invert(A)` (R84): for i in 0..255, `Dt[A[i]] <- i`. -/
def invertTable (A : List Byte) : List Byte :=
  (List.range 256).foldl (fun D i => D.set (A.getD i 0).toNat (BitVec.ofNat 8 i)) (List.replicate 256 0)

/-- One table pair stored: `E[t][x] <- A[x]; D[t] <- Invert(A)` (R80). -/
def storePair (m : Memory) (t : Fin 8) (A : List Byte) : Memory :=
  Memory.store (Memory.store m (tableBase t .enc) A) (tableBase t .dec) (invertTable A)

/-- The tables of the listed positions, in order; none as soon as a draw is out of range (R80, R85, R86). -/
def genTables : List (Fin 8) → Memory → RandomSource → Option Memory × RandomSource
  | [], m, r => (some m, r)
  | t :: ts, m, r =>
    match shuffle r with
    | (none, r') => (none, r')
    | (some A, r') => genTables ts (storePair m t A) r'

/-- The positions TBL_GEN generates, in ascending order (R80, R85); pair 0 is not generated (R81). -/
def generatedPositions : List (Fin 8) := [1, 2, 3, 4, 5, 6, 7]

/-- The whole factory (R80): TVALID is 1 exactly when every draw was in range; else RNG is recorded, TVALID is 0 and
tables 1..7 are unspecified (R86). The draws made stay made. -/
def generate (s : State) : State :=
  match genTables generatedPositions s.tables s.rng with
  | (some m, r) => (s.setTables m true).setRng r
  | (none, r) => raiseError .rng (spoilTables (s.setRng r))

/-- TBL_GEN (R80): no precondition. -/
def execTblGen (s : State) : Host.Outcome State Fault Refusal :=
  .next (generate s)

end Sys2Proof.Machine
end

