-- ==== Sys2Proof/Machine/Dispatch.lean ====
section
/-! DEFINITION. One arm per command: its meaning. -/

namespace Sys2Proof.Machine

def exec (i : Instr) (s : State) : Host.Outcome State Fault Refusal :=
  match i with
  | .nop => Sys2Proof.Machine.execNop s
  | .keyClear => Sys2Proof.Machine.execKeyClear s
  | .keyAbsorb => Sys2Proof.Machine.execKeyAbsorb s
  | .tblGen => Sys2Proof.Machine.execTblGen s
  | .encrypt => Sys2Proof.Machine.execEncrypt s
  | .decrypt => Sys2Proof.Machine.execDecrypt s
  | .keymix => Sys2Proof.Machine.execKeymix s
  | .sub => Sys2Proof.Machine.execSub s
  | .invsub => Sys2Proof.Machine.execInvsub s
  | .rotl => Sys2Proof.Machine.execRotl s
  | .rotr => Sys2Proof.Machine.execRotr s
  | .encRound => Sys2Proof.Machine.execEncRound s
  | .decRound => Sys2Proof.Machine.execDecRound s
  | .errClear => Sys2Proof.Machine.execErrClear s

end Sys2Proof.Machine
end

