-- ==== Sys2Proof/Machine/HostPort.lean ====
section
/-! DEFINITION. The host register interface (20_memory.md): HostWrite (R32, R33) and HostRead (R34, R35, R36). -/

namespace Sys2Proof.Machine

/-- `HostWrite` with BUSY = 0 (R32): CMD starts a command, ARG and BLOCK are written, every other address ignores the
write with no error (R37, R38). -/
def writeIdle (reg : HostReg) (v : Byte) (s : State) : State :=
  match reg with
  | .cmd => s.latch v
  | .arg => s.setArg v
  | .block p => s.loadByte p v
  | .status | .kptr | .bwr | .key _ | .table _ _ _ | .reserved => s

/-- `HostWrite` with BUSY = 1 (R33): a write to CMD, ARG or BLOCK is discarded and records Error(BUSY); at every other
address it is ignored with no error. -/
def writeBusy (reg : HostReg) (s : State) : State :=
  match reg with
  | .cmd | .arg | .block _ => raiseError .busy s
  | .status | .kptr | .bwr | .key _ | .table _ _ _ | .reserved => s

/-- `HostWrite(addr, v)` (R32, R33). -/
def hostWrite (addr : Addr) (v : Byte) (s : State) : State :=
  if s.busy then writeBusy (hostReg addr) s else writeIdle (hostReg addr) v s

/-- The value a read gives, none standing for `any` (R34, R36 with BUSY = 0, R35 with BUSY = 1). -/
def readValue (reg : HostReg) (s : State) : Option Byte :=
  match reg with
  | .cmd => some 0x00
  | .arg => some s.arg
  | .status => some s.status
  | .bwr => some s.bwr
  | .reserved => some 0x00
  | .kptr => if s.busy then none else some (s.kptr.setWidth 8)
  | .block p => if !s.busy && s.bwr.getLsbD p.val then some (byteAt s.block p) else none
  | .key p => if !s.busy && s.kvalid then some (byteAt s.key p) else none
  | .table p d x => if !s.busy && (decide (p = 0) || s.tvalid) then some (s.entry d p x) else none

/-- `HostRead(addr)`: the value and the state, which a read leaves as it is (R34, R42) but for the model's own counter
of free values where the read is `any`. -/
def hostRead (addr : Addr) (s : State) : Byte × State :=
  match readValue (hostReg addr) s with
  | some v => (v, s)
  | none => drawAny s

end Sys2Proof.Machine
end

