-- ==== Sys2Proof/WellFormed.lean ====
section
/-! DEFINITION. What is well formed. A command has no field (R50), so every command is; a host script (R56) is when
no label stands twice in it and every `bnz` names one of its labels. -/

namespace Sys2Proof

/-- No command has a field that could be out of range (R50). -/
def Instr.wellFormed (i : Instr) : Bool :=
  match i with
  | .nop | .keyClear | .keyAbsorb | .tblGen | .encrypt | .decrypt | .keymix => true
  | .sub | .invsub | .rotl | .rotr | .encRound | .decRound | .errClear => true

namespace Machine

/-- The labels of a script, in order. -/
def scriptLabels : List HostStmt → List Nat
  | [] => []
  | .label l :: rest => l :: scriptLabels rest
  | .wr _ _ :: rest => scriptLabels rest
  | .rd _ :: rest => scriptLabels rest
  | .cmd _ :: rest => scriptLabels rest
  | .bnz _ _ _ :: rest => scriptLabels rest
  | .check :: rest => scriptLabels rest

/-- A `bnz` goes to a place of the script (R56). -/
def targetKnown (labels : List Nat) (st : HostStmt) : Bool :=
  match st with
  | .bnz l _ _ => labels.contains l
  | .wr _ _ | .rd _ | .cmd _ | .label _ | .check => true

/-- No label twice, and every `bnz` has its place. -/
def scriptWellFormed (script : List HostStmt) : Bool :=
  decide (scriptLabels script).Nodup && script.all (targetKnown (scriptLabels script))

end Machine

end Sys2Proof
end

