-- ==== Sys2Proof/Machine/Script.lean ====
section
/-! DEFINITION. The host agent's turn: one statement of its script (R56), and the pseudo-instructions (R57) and the four
contracts (R58) as the scripts they expand to. -/

namespace Sys2Proof.Machine

/-! ## The host's turn -/

/-- The host stands at another statement. -/
def State.hostGoto (s : State) (pos : Nat) : State :=
  s.setHost { s.host with pos := pos }

/-- The host goes on to its next statement. -/
def State.hostAdvance (s : State) : State :=
  s.hostGoto (s.host.pos + 1)

/-- One host read, its value recorded in the observation of the run (R56, R180). -/
def recordedRead (addr : Addr) (s : State) : Byte × State :=
  let (v, t) := hostRead addr s
  (v, t.setHost { t.host with reads := t.host.reads ++ [(addr, v)] })

/-- Where a label stands, counting from `k`. -/
def labelFrom (l : Nat) : Nat → List HostStmt → Option Nat
  | _, [] => none
  | k, st :: rest => if st = .label l then some k else labelFrom l (k + 1) rest

/-- The host's branch after the read of a `bnz` (R56). -/
def branchTo (l : Nat) (taken : Bool) (s : State) : Host.Outcome State Fault Refusal :=
  if taken then
    match labelFrom l 0 s.host.script with
    | some k => .next (s.hostGoto k)
    | none => .fault (.missingLabel l)
  else .next s.hostAdvance

/-- One statement (R56): `check` is R57's, its read followed by the failure of the script when ERR is not 0. -/
def hostStmt (st : HostStmt) (s : State) : Host.Outcome State Fault Refusal :=
  match st with
  | .wr addr v => .next (hostWrite addr v s).hostAdvance
  | .rd addr => .next (recordedRead addr s).2.hostAdvance
  | .cmd i => .next (hostWrite 0x0000 (encode i) s).hostAdvance
  | .label _ => .next s.hostAdvance
  | .bnz l addr mask =>
    branchTo l (decide ((recordedRead addr s).1 &&& mask ≠ 0)) (recordedRead addr s).2
  | .check =>
    let (v, t) := recordedRead 0x0002 s
    .next (t.setHost { t.host with failed := decide (v &&& 0x70 ≠ 0) }).hostAdvance

/-- The host's turn: its next statement; nothing when its script is done or has failed. -/
def hostTurn (s : State) : Host.Outcome State Fault Refusal :=
  if s.host.failed then .next s
  else
    match s.host.script[s.host.pos]? with
    | some st => hostStmt st s
    | none => .next s

/-! ## Pseudo-instructions -/

/-- A line of a host script before expansion (R56, R57). -/
inductive Pseudo where
  /-- a plain statement of R56, or `check`. -/
  | stmt (st : HostStmt)
  /-- `wait`. -/
  | wait
  /-- `do MNEMONIC`. -/
  | doCmd (i : Instr)
  /-- `absorb b0, b1, ...`. -/
  | absorb (bytes : List Byte)
  /-- `derive b0, b1, ...`. -/
  | derive (bytes : List Byte)
  /-- `loadblk b0, ..., b7`. -/
  | loadblk (b : Bytes8)
  /-- `readblk`. -/
  | readblk
  /-- `readkey`. -/
  | readkey
  deriving DecidableEq, Repr

/-- The bytes of a string: its characters' 8-bit codes, no terminator (R57). DESIGN CHOICE (log entry 12): R57 gives
8-bit codes alone; of a character whose code does not fit, the low 8 bits are taken. -/
def stringBytes (str : String) : List Byte :=
  str.toList.map fun c => BitVec.ofNat 8 c.toNat

/-- `wait` with the fresh label number n: read STATUS until BUSY = 0. -/
def waitStmts (n : Nat) : List HostStmt :=
  [.label n, .bnz n 0x0002 0x01]

/-- `do MNEMONIC`: cmd, then wait. -/
def doStmts (i : Instr) (n : Nat) : List HostStmt :=
  .cmd i :: waitStmts n

/-- `absorb`: for each byte in order `wr ARG, c` and `do KEY_ABSORB`, with the label numbers from n on. -/
def absorbStmts : List Byte → Nat → List HostStmt
  | [], _ => []
  | c :: cs, n => .wr 0x0001 c :: (doStmts .keyAbsorb n ++ absorbStmts cs (n + 1))

/-- `loadblk`: 8 writes, in order. -/
def loadblkStmts (b : Bytes8) : List HostStmt :=
  [.wr 0x0008 (byteAt b 0), .wr 0x0009 (byteAt b 1), .wr 0x000A (byteAt b 2), .wr 0x000B (byteAt b 3),
   .wr 0x000C (byteAt b 4), .wr 0x000D (byteAt b 5), .wr 0x000E (byteAt b 6), .wr 0x000F (byteAt b 7)]

/-- `readblk`: 8 reads, in order. -/
def readblkStmts : List HostStmt :=
  [.rd 0x0008, .rd 0x0009, .rd 0x000A, .rd 0x000B, .rd 0x000C, .rd 0x000D, .rd 0x000E, .rd 0x000F]

/-- `readkey`: 8 reads, in order. -/
def readkeyStmts : List HostStmt :=
  [.rd 0x0010, .rd 0x0011, .rd 0x0012, .rd 0x0013, .rd 0x0014, .rd 0x0015, .rd 0x0016, .rd 0x0017]

/-- The expansion of one line with fresh labels from n on, and the first label number not used (R57). -/
def expandOne (ps : Pseudo) (n : Nat) : List HostStmt × Nat :=
  match ps with
  | .stmt st => ([st], n)
  | .wait => (waitStmts n, n + 1)
  | .doCmd i => (doStmts i n, n + 1)
  | .absorb bytes => (absorbStmts bytes n, n + bytes.length)
  | .derive bytes => (doStmts .keyClear n ++ absorbStmts bytes (n + 1), n + 1 + bytes.length)
  | .loadblk b => (loadblkStmts b, n)
  | .readblk => (readblkStmts, n)
  | .readkey => (readkeyStmts, n)

/-- The expansion of a script with fresh labels from n on. -/
def expandFrom : List Pseudo → Nat → List HostStmt
  | [], _ => []
  | ps :: rest, n => (expandOne ps n).1 ++ expandFrom rest (expandOne ps n).2

/-- The first number above every label that the lines themselves write, at its place or as the target of a `bnz`, so
that the numbers from it on are fresh (R57). DESIGN CHOICE (log entry 13): R57 does not say which number is taken. -/
def freshLabel : List Pseudo → Nat
  | [] => 0
  | .stmt (.label l) :: rest => max (l + 1) (freshLabel rest)
  | .stmt (.bnz l _ _) :: rest => max (l + 1) (freshLabel rest)
  | _ :: rest => freshLabel rest

/-- A host script written with pseudo-instructions, expanded (R57). -/
def expandScript (lines : List Pseudo) : List HostStmt :=
  expandFrom lines (freshLabel lines)

/-- `deriveKey(P)` (R58). -/
def deriveKeyScript (passphrase : List Byte) : List Pseudo :=
  [.derive passphrase, .readkey]

/-- `generateTables(randomSource)` (R58). -/
def generateTablesScript : List Pseudo :=
  [.doCmd .tblGen]

/-- `encryptBlock(B)` (R58). -/
def encryptBlockScript (b : Bytes8) : List Pseudo :=
  [.loadblk b, .doCmd .encrypt, .readblk]

/-- `decryptBlock(C)` (R58). -/
def decryptBlockScript (c : Bytes8) : List Pseudo :=
  [.loadblk c, .doCmd .decrypt, .readblk]

end Sys2Proof.Machine
end

