-- ==== Sys2Proof/Machine/Turns.lean ====
section
/-! DEFINITION. Who moves next (R43, R172, R176), and the reset input (R170, R171). -/

namespace Sys2Proof.Machine

/-- Who moves next: as the interleaving says, and where it says nothing more, the engine when a command is pending, else
the host (log entry 4). -/
def nextTurn (s : State) : Turn :=
  match s.sched with
  | t :: _ => t
  | [] => if s.busy then .engine else .host

/-- The reset input (R170): every piece of the engine's state takes its reset value (R171), a pending command is
abandoned. The host, the interleaving and the random source are other agents' and stay. -/
def assertReset (s : State) : State :=
  { State.reset with host := s.host, sched := s.sched, rng := s.rng, freeCtr := s.freeCtr }

/-- The state in which the very next step is the engine's step on the opcode v: v latched as by an accepted host write
to CMD (R32), and the engine's turn next. -/
def pendingCommand (v : Byte) (s : State) : State :=
  { s.latch v with sched := .engine :: s.sched }

end Sys2Proof.Machine
end

