-- ==== Sys2Proof/Machine/Step.lean ====
section
/-! DEFINITION. One step of the machine: the turn of one agent. -/

namespace Sys2Proof.Machine

/-- The engine step (R176): with BUSY = 1, decode LCMD (R52), perform the whole command, clear BUSY; with BUSY = 0 the
engine has no step and nothing changes. -/
def engineTurn (s : State) : Host.Outcome State Fault Refusal :=
  if s.busy then
    match decode s.lcmd with
    | .command i => finishCommand (exec i s)
    | .illegal _ => finishCommand (.next (illegalCommand s))
  else .next s

/-- One step: the agent whose turn it is moves, its turn used up. -/
def step (s : State) : Host.Outcome State Fault Refusal :=
  match nextTurn s with
  | .engine => engineTurn s.popTurn
  | .host => hostTurn s.popTurn
  | .reset => .next (assertReset s.popTurn)

/-- s with the command of the opcode table's word pending and the engine's turn next. -/
def State.withFetchWord (s : State) (nbits w : Nat) : State :=
  pendingCommand (tableByte nbits w) s

end Sys2Proof.Machine
end

