-- ==== Sys2Proof/Machine/Run.lean ====
section
/-! DEFINITION. Runs of a host program (R180): several steps, when a run has ended, and what is observed of it. -/

namespace Sys2Proof.Machine

/-- n steps of the machine. -/
def runSteps : Nat → State → Host.Outcome State Fault Refusal
  | 0, s => .next s
  | n + 1, s =>
    match step s with
    | .next t => runSteps n t
    | .fault f => .fault f
    | .refused r => .refused r

/-- A statement of a host script that makes a bus transaction: every one but a label (R56). -/
def HostStmt.isAccess (st : HostStmt) : Bool :=
  match st with
  | .wr _ _ | .rd _ | .cmd _ | .bnz _ _ _ | .check => true
  | .label _ => false

/-- The host has made its last access: no access stands ahead of it in its script, or its script has failed
(DESIGN CHOICE, log entry 9). -/
def State.hostDone (s : State) : Bool :=
  s.host.failed || (s.host.script.drop s.host.pos).all fun st => !st.isAccess

/-- A run ends when the host has made its last access and BUSY = 0 (R180). -/
def State.runEnded (s : State) : Bool :=
  s.hostDone && !s.busy

/-- The engine's own state, the rows of 10_state.md section 1 that have storage. -/
structure EngineState where
  /-- BLOCK (R10). -/
  block : Bytes8
  /-- BWR (R11). -/
  bwr : BitVec 8
  /-- KEY (R13). -/
  key : Bytes8
  /-- KPTR (R14). -/
  kptr : BitVec 3
  /-- KVALID (R15). -/
  kvalid : Bool
  /-- E[1..7] and D[1..7] (R16). -/
  tables : Memory
  /-- TVALID (R18). -/
  tvalid : Bool
  /-- ARG (R19). -/
  arg : Byte
  /-- LCMD (R20). -/
  lcmd : Byte
  /-- BUSY (R21). -/
  busy : Bool
  /-- ERR (R22). -/
  err : BitVec 3
  deriving DecidableEq, Repr

/-- The engine's part of the state. -/
def State.engine (s : State) : EngineState where
  block := s.block
  bwr := s.bwr
  key := s.key
  kptr := s.kptr
  kvalid := s.kvalid
  tables := s.tables
  tvalid := s.tvalid
  arg := s.arg
  lcmd := s.lcmd
  busy := s.busy
  err := s.err

/-- What is observed of a run (R180), and all that a claim about a run reads. -/
structure Observation where
  /-- the values the host's reads returned, oldest first. -/
  values : List Byte
  /-- the engine state at the end. -/
  engine : EngineState
  deriving DecidableEq, Repr

/-- The observation that a run ending in s gives (R180). -/
def State.observation (s : State) : Observation where
  values := s.host.reads.map Prod.snd
  engine := s.engine

/-- The run ends in s, and ERR is not 0 there: the run has had an error (R180). The converse is no rule: after an
ERR_CLEAR a run that has had errors can end with ERR = 0. -/
def State.endsInError (s : State) : Bool :=
  s.runEnded && s.err != 0

end Sys2Proof.Machine
end

