-- ==== Sys2Proof/Safety.lean ====
section
/-! DEFINITION. The terms claims are made in: the invariant of the machine, runs of several commands, the random draws
of a TBL_GEN, the permutation a shuffle stands for, the key a passphrase folds to, and what two states that look the
same to the host have in common. -/

namespace Sys2Proof.Machine

/-! ## The invariant -/

/-- R26's consequent: every E[p] is a permutation of 0..255 and D[p] undoes it. -/
def State.TablesInverse (s : State) : Prop :=
  ∀ p, Function.Bijective (s.entry .enc p) ∧ ∀ x, s.entry .dec p (s.entry .enc p x) = x

/-- What every step keeps: table memory canonical, ERR never the reserved code 7 (R150), valid tables inverse (R26). -/
structure State.Inv (s : State) : Prop where
  /-- Table memory is in its canonical form. -/
  tablesWf : Memory.wf s.tables = true
  /-- ERR code 7 is never produced (R150). -/
  errDefined : s.err ≠ 7
  /-- Valid tables are permutations with their inverses (R26). -/
  tablesInverse : s.tvalid = true → s.TablesInverse

/-! ## The opcode map -/

/-- The rows of R51's table: opcode and command. -/
def opcodeMap : List (Byte × Instr) :=
  [(0x00, .nop), (0x01, .keyClear), (0x02, .keyAbsorb), (0x03, .tblGen), (0x04, .encrypt), (0x05, .decrypt),
   (0x06, .keymix), (0x07, .sub), (0x08, .invsub), (0x09, .rotl), (0x0A, .rotr), (0x0B, .encRound), (0x0C, .decRound),
   (0x0D, .errClear)]

/-- The commands that need KVALID (R150, code 2). -/
def keyCommands : List Instr :=
  [.keyAbsorb, .keymix, .encRound, .encrypt, .decRound, .decrypt]

/-- The commands that need TVALID (R150, code 3). -/
def tableCommands : List Instr :=
  [.sub, .invsub, .encRound, .encrypt, .decRound, .decrypt]

/-- The commands that need BVALID (R150, code 4), which are those that touch BLOCK (R10). -/
def blockCommands : List Instr :=
  [.keymix, .sub, .invsub, .rotl, .rotr, .encRound, .encrypt, .decRound, .decrypt]

/-! ## Turns -/

/-- The next turn is the engine's: the interleaving says so, or says nothing more while a command is pending. -/
def State.engineNext (s : State) : Prop :=
  s.sched.head? = some .engine ∨ (s.sched = [] ∧ s.busy = true)

/-- The next turn is the host's: the interleaving says so, or says nothing more while no command is pending. -/
def State.hostNext (s : State) : Prop :=
  s.sched.head? = some .host ∨ (s.sched = [] ∧ s.busy = false)

/-- The next turn is the reset input's. -/
def State.resetNext (s : State) : Prop :=
  s.sched.head? = some .reset

/-- s with its first turn used up. -/
def State.afterTurn (s : State) : State :=
  { s with sched := s.sched.tail }

/-- s with the host standing at statement n of its script. -/
def State.hostAt (s : State) (n : Nat) : State :=
  { s with host := { s.host with pos := n } }

/-- s with one more read in the host's record. -/
def State.withRead (s : State) (a : Addr) (v : Byte) : State :=
  { s with host := { s.host with reads := s.host.reads ++ [(a, v)] } }

/-- s after an `any` read: one more free value used. -/
def State.afterAny (s : State) : State :=
  { s with freeCtr := s.freeCtr + 1 }

/-! ## Errors -/

/-- The state with error code c recorded: `if ERR = 0: ERR <- c` (R152), nothing else changed. -/
def State.withError (s : State) (c : BitVec 3) : State :=
  { s with err := if s.err = 0 then c else s.err }

/-! ## Several commands in a row -/

/-- The commands one after another, each on the state the one before left. -/
def runCommands : List Instr → State → Host.Outcome State Fault Refusal
  | [], s => .next s
  | i :: rest, s =>
    match exec i s with
    | .next t => runCommands rest t
    | .fault f => .fault f
    | .refused r => .refused r

/-- KEY_ABSORB of each byte in order, ARG holding that byte. -/
def absorbAll : List Byte → State → Host.Outcome State Fault Refusal
  | [], s => .next s
  | c :: cs, s =>
    match exec .keyAbsorb { s with arg := c } with
    | .next t => absorbAll cs t
    | .fault f => .fault f
    | .refused r => .refused r

/-- KEY_CLEAR, then KEY_ABSORB of each byte of the passphrase (R72). -/
def deriveKey (passphrase : List Byte) (s : State) : Host.Outcome State Fault Refusal :=
  match exec .keyClear s with
  | .next t => absorbAll passphrase t
  | .fault f => .fault f
  | .refused r => .refused r

/-- `s[p] ^ s[p+8] ^ s[p+16] ^ ...` over the indices below n, 0x00 when there is none (R72). -/
def foldedByte (passphrase : List Byte) (p : Fin 8) : Byte :=
  ((List.range passphrase.length).filter (fun i => decide (i % 8 = p.val))).foldl
    (fun acc i => acc ^^^ passphrase.getD i 0) 0

/-! ## The draws of a TBL_GEN -/

/-- The bound of draw number n (R85). -/
def drawBound (n : Nat) : Nat :=
  255 - n % 255

/-- The source's answer to draw number n of a TBL_GEN that starts with the source r (R83, R85). -/
def drawAnswer (r : RandomSource) (n : Nat) : Byte :=
  r.answers.getD n (Config.randomByte (r.asked + n) (drawBound n))

/-- The draws before number n are in range (R83). -/
def DrawsInRange (r : RandomSource) (n : Nat) : Prop :=
  ∀ k < n, (drawAnswer r k).toNat ≤ drawBound k

/-- The first k swaps of a shuffle as a permutation: the swap of entries i and j composes on the right with the
transposition of i and j, for i = 255, 254, ... (R82). -/
def swapProduct (j : Nat → Byte) : Nat → Equiv.Perm Byte
  | 0 => 1
  | k + 1 => swapProduct j k * Equiv.swap (BitVec.ofNat 8 (255 - k)) (j k)

/-- The permutation that the draws of table t make (R82, R85): draw 255 (t - 1) + k has the bound 255 - k. -/
def shufflePerm (r : RandomSource) (t : Fin 8) : Equiv.Perm Byte :=
  swapProduct (fun k => drawAnswer r (255 * (t.val - 1) + k)) 255

/-! ## The causes of an error -/

/-- The engine's turn is next and the pending command meets the cause of error c (R150, codes 1 to 5). -/
def State.engineRaises (s : State) (c : BitVec 3) : Prop :=
  s.engineNext ∧ s.busy = true ∧
    ((c = 1 ∧ 0x0E ≤ s.lcmd.toNat) ∨
      ∃ i, decode s.lcmd = .command i ∧
        ((c = 2 ∧ i ∈ keyCommands ∧ s.kvalid = false) ∨ (c = 3 ∧ i ∈ tableCommands ∧ s.tvalid = false) ∨
          (c = 4 ∧ i ∈ blockCommands ∧ s.bwr ≠ 0xFF) ∨
          (c = 5 ∧ i = .tblGen ∧ ∃ n < Config.drawsPerGen, DrawsInRange s.rng n ∧
            drawBound n < (drawAnswer s.rng n).toNat)))

/-- The host's turn is next and its statement writes CMD, ARG or BLOCK while BUSY = 1 (R150, code 6). -/
def State.hostRaises (s : State) (c : BitVec 3) : Prop :=
  c = 6 ∧ s.hostNext ∧ s.busy = true ∧ s.host.failed = false ∧
    ((∃ i, s.host.script[s.host.pos]? = some (.cmd i)) ∨
      ∃ a v, s.host.script[s.host.pos]? = some (.wr a v) ∧ (a.toNat ≤ 0x0001 ∨ (0x0008 ≤ a.toNat ∧ a.toNat < 0x0010)))

/-! ## The affine cipher -/

/-- `rotl16(K) ^ rotl15(K) ^ ... ^ rotl1(K)` (R109), of n terms. -/
def rotationSum (k : Quad) : Nat → Quad
  | 0 => 0
  | n + 1 => k.rotateLeft (n + 1) ^^^ rotationSum k n

/-! ## What the host can tell apart -/

/-- Two states that agree on everything but what no rule lets anyone see: block bytes not written since reset (R34), the
key while KVALID = 0, tables 1..7 while TVALID = 0 (R171), and the latch while BUSY = 0 (R20). -/
structure SameVisible (s t : State) : Prop where
  /-- BWR. -/
  bwr : s.bwr = t.bwr
  /-- KPTR. -/
  kptr : s.kptr = t.kptr
  /-- KVALID. -/
  kvalid : s.kvalid = t.kvalid
  /-- TVALID. -/
  tvalid : s.tvalid = t.tvalid
  /-- ARG. -/
  arg : s.arg = t.arg
  /-- BUSY. -/
  busy : s.busy = t.busy
  /-- ERR. -/
  err : s.err = t.err
  /-- the host agent, with every value its reads returned. -/
  host : s.host = t.host
  /-- the interleaving. -/
  sched : s.sched = t.sched
  /-- the random source. -/
  rng : s.rng = t.rng
  /-- the free values used. -/
  freeCtr : s.freeCtr = t.freeCtr
  /-- the latch of a pending command. -/
  lcmd : s.busy = true → s.lcmd = t.lcmd
  /-- block bytes written since reset. -/
  block : ∀ p : Fin 8, s.bwr.getLsbD p.val = true → byteAt s.block p = byteAt t.block p
  /-- a key that was initialised. -/
  key : s.kvalid = true → s.key = t.key
  /-- tables that are valid. -/
  tables : s.tvalid = true → ∀ d p x, s.entry d p x = t.entry d p x

end Sys2Proof.Machine
end

