-- ==== Sys2Proof/Certificates/Slice0/Obligations.lean ====
section
/-! DEFINITION. The statements for the provers, from the numbered rules of the spec. A command statement gives the whole
next state: `t = { s with … }` names the fields that may differ, so it is the frame too. In every statement about a step the
turns of the interleaving and their use (`sched`, `afterTurn`) are the model's choice (log entry 4), and a read that is
any gives the model's free value (log entry 6). -/

open Sys2Proof Sys2Proof.Machine

/-! ## Encoding -/

/-- R51: the defined opcodes are exactly the table's rows. -/
def Obligations.OpcodeMapIsExact : Prop :=
  ∀ (b : Byte) (i : Instr), decode b = .command i ↔ (b, i) ∈ opcodeMap

/-- R51, R54: the sample words of every family, bit by bit, and two illegal ones. -/
def Obligations.SampleOpcodesDecode : Prop :=
  decode 0b00000000#8 = .command .nop ∧ decode 0b00001101#8 = .command .errClear ∧
    decode 0b00000010#8 = .command .keyAbsorb ∧ decode 0b00000011#8 = .command .tblGen ∧
    decode 0b00000100#8 = .command .encrypt ∧ decode 0b00001011#8 = .command .encRound ∧
    decode 0b00000101#8 = .command .decrypt ∧ decode 0b00001010#8 = .command .rotr ∧
    decode 0b00001110#8 = .illegal 0x0E ∧ decode 0b11111111#8 = .illegal 0xFF

/-- R51, R54: encoding and decoding are inverse, and every byte from 0x0E on is illegal. -/
def Obligations.EncodeAndDecodeAgree : Prop :=
  (∀ i : Instr, i.wellFormed = true → decode (encode i) = .command i) ∧
    (∀ (b : Byte) (i : Instr), decode b = .command i → encode i = b) ∧
    ∀ b o : Byte, decode b = .illegal o ↔ o = b ∧ 0x0E ≤ b.toNat

/-! ## The step -/

/-- R176: in the engine's turn with a command pending, the step is that command's meaning and then `BUSY <- 0`; the
turn is used up before. -/
def Obligations.StepRunsDecodedCommand : Prop :=
  ∀ (s : State) (i : Instr), s.engineNext → s.busy = true → decode s.lcmd = .command i → i.wellFormed = true →
    step s = finishCommand (exec i s.afterTurn) ∧
      ∀ t, exec i s.afterTurn = .next t → step s = .next { t with busy := false }

/-- R52: exact match against the opcode map; every other opcode raises ILLEGAL with no other effect than clearing BUSY;
decoding happens in the step, a host write of an illegal opcode with BUSY = 0 being accepted like any other. -/
def Obligations.IllegalOpcodeRaisesIllegal : Prop :=
  (∀ s : State, s.engineNext → s.busy = true →
    (∀ b i, (b, i) ∈ opcodeMap → s.lcmd = b → step s = finishCommand (exec i s.afterTurn)) ∧
      (0x0E ≤ s.lcmd.toNat → step s = .next { s.afterTurn.withError 1 with busy := false })) ∧
    ∀ (s : State) (v : Byte), s.busy = false → 0x0E ≤ v.toNat →
      hostWrite 0x0000 v s = { s with lcmd := v, busy := true }

/-- R176: when BUSY = 0 the engine has no step. That its turn is then a step that uses up the turn alone is the model's
choice (log entry 4). -/
def Obligations.IdleEngineHasNoStep : Prop :=
  ∀ s : State, s.engineNext → s.busy = false → step s = .next s.afterTurn

/-- R172: after reset nothing moves, and the engine waits for the host. The model's choices: the turn of a host that has
nothing to do changes nothing but the interleaving (log entry 4), and a host whose script has failed makes no further
access (log entry 9). -/
def Obligations.IdleMachineWaitsForHost : Prop :=
  step State.reset = .next State.reset ∧
    ∀ s : State, s.hostNext → (s.host.failed = true ∨ s.host.script.length ≤ s.host.pos) →
      step s = .next s.afterTurn

/-- R176: a pending command is not left pending forever. Whatever the interleaving still to come says, and whatever
the host does in it, BUSY is 0 after at most one step more than the interleaving has turns: the engine has performed the
command, or the reset input has abandoned it. That the engine moves when the interleaving says nothing more is the
model's choice (log entry 4). -/
def Obligations.PendingCommandIsNotLeftPending : Prop :=
  ∀ s : State, scriptWellFormed s.host.script = true → s.busy = true →
    ∃ k t, k ≤ s.sched.length + 1 ∧ runSteps k s = .next t ∧ t.busy = false

/-- Every step of a machine whose host script is well formed answers a next state, and leaves the script as it is. That a
taken bnz to a missing label is a fault, which the premise rules out, is the model's choice (log entry 8). -/
def Obligations.WellFormedScriptNeverStops : Prop :=
  ∀ s : State, scriptWellFormed s.host.script = true → ∃ t, step s = .next t ∧ t.host.script = s.host.script

/-! ## Invariants -/

/-- R26, R87, R150: table memory stays canonical, ERR is never 7, and valid tables are permutations with their
inverses, over every step. -/
def Obligations.EveryStepKeepsTheInvariant : Prop :=
  ∀ s t : State, s.Inv → step s = .next t → t.Inv

/-- The invariant holds at reset. -/
def Obligations.ResetMeetsTheInvariant : Prop :=
  State.reset.Inv

/-- R171, R34, R36, R20: what is unspecified after reset is never observable: two states that differ only in unwritten
block bytes, an uninitialised key, invalid tables, or an idle latch, make steps that again differ only so, and the host
reads the same values. -/
def Obligations.UnspecifiedDataIsNeverObservable : Prop :=
  ∀ s t : State, SameVisible s t →
    (∀ s', step s = .next s' → ∃ t', step t = .next t' ∧ SameVisible s' t') ∧
      ∀ f, step s = .fault f → step t = .fault f

/-! ## Control commands -/

/-- R140: NOP does nothing; the engine step clears BUSY. -/
def Obligations.NopDoesNothing : Prop :=
  decode 0x00 = .command .nop ∧ (∀ s : State, exec .nop s = .next s) ∧
    ∀ s : State, s.engineNext → s.busy = true → s.lcmd = 0x00 → step s = .next { s.afterTurn with busy := false }

/-- R141: ERR_CLEAR sets ERR to 0 and changes nothing else; as a host write while BUSY = 1 it is itself discarded and
records BUSY if ERR is 0. -/
def Obligations.ErrClearClearsErr : Prop :=
  decode 0x0D = .command .errClear ∧ (∀ s : State, exec .errClear s = .next { s with err := 0 }) ∧
    ∀ s : State, s.busy = true → hostWrite 0x0000 0x0D s = s.withError 6

/-! ## Key deriver -/

/-- R70: KEY_CLEAR makes the key all zero, KPTR 0 and KVALID 1, from every state, and changes nothing else. -/
def Obligations.KeyClearStartsDerivation : Prop :=
  decode 0x01 = .command .keyClear ∧
    ∀ s : State, ∃ t, exec .keyClear s = .next t ∧ t = { s with key := t.key, kptr := 0, kvalid := true } ∧
      ∀ p, byteAt t.key p = 0x00

/-- R71: KEY_ABSORB folds ARG into KEY[KPTR] and advances KPTR mod 8; NOKEY when KVALID = 0. -/
def Obligations.KeyAbsorbFoldsArg : Prop :=
  decode 0x02 = .command .keyAbsorb ∧
    ∀ s : State, (s.kvalid = false → exec .keyAbsorb s = .next (s.withError 2)) ∧
      (s.kvalid = true → ∃ t, exec .keyAbsorb s = .next t ∧ t = { s with key := t.key, kptr := t.kptr } ∧
        t.kptr.toNat = (s.kptr.toNat + 1) % 8 ∧
        ∀ p : Fin 8, byteAt t.key p = if p.val = s.kptr.toNat then byteAt s.key p ^^^ s.arg else byteAt s.key p)

/-- R72: KEY_CLEAR and then KEY_ABSORB of the bytes of a passphrase give the folded key and KPTR = n mod 8, from every
state; nothing else changes but ARG, which holds the last byte. -/
def Obligations.DerivationFoldsPassphrase : Prop :=
  ∀ (passphrase : List Byte) (s : State), ∃ t, deriveKey passphrase s = .next t ∧
    t = { s with key := t.key, kptr := t.kptr, kvalid := true, arg := passphrase.getLast?.getD s.arg } ∧
    (∀ p, byteAt t.key p = foldedByte passphrase p) ∧ t.kptr.toNat = passphrase.length % 8

/-- R73: two passphrases give the same key exactly when their bytes fold alike at every position. -/
def Obligations.KeysCollideExactlyWhenFoldsAgree : Prop :=
  (∀ (p₁ p₂ : List Byte) (s₁ s₂ : State), ∃ t₁ t₂, deriveKey p₁ s₁ = .next t₁ ∧ deriveKey p₂ s₂ = .next t₂ ∧
    (t₁.key = t₂.key ↔ ∀ p, foldedByte p₁ p = foldedByte p₂ p)) ∧
    ∀ p, foldedByte (List.replicate 16 0x41) p = 0x00 ∧ foldedByte [] p = 0x00

/-! ## Table factory -/

/-- R17, R81: table pair 0 is the identity in every state, also right after TBL_GEN; the host reads it so with
BUSY = 0. -/
def Obligations.TableZeroIsIdentity : Prop :=
  (∀ (s : State) (d : Dir) (x : Byte), s.entry d 0 x = x) ∧
    ∀ (s : State) (a : Addr), s.busy = false → 0x1000 ≤ a.toNat → a.toNat < 0x1200 →
      hostRead a s = (BitVec.ofNat 8 (a.toNat % 256), s)

/-- R80, R82, R84, R85: with every draw in range, TBL_GEN makes 1785 draws, sets TVALID, and leaves at each position
1 to 7 the permutation that its 255 transpositions compose to, and its inverse; no other state and no byte outside
table memory changes. -/
def Obligations.TblGenIsFisherYates : Prop :=
  ∀ s : State, DrawsInRange s.rng Config.drawsPerGen → ∃ t, exec .tblGen s = .next t ∧
    t = { s with tables := t.tables, tvalid := true, rng := t.rng } ∧
    t.rng = ⟨s.rng.answers.drop 1785, s.rng.asked + 1785⟩ ∧
    (∀ p : Fin 8, p ≠ 0 → ∀ x, t.entry .enc p x = shufflePerm s.rng p x ∧
      t.entry .dec p x = (shufflePerm s.rng p).symm x) ∧
    ∀ a, a < 0x1200 ∨ 0x2000 ≤ a → Memory.read t.tables a = Memory.read s.tables a

/-- R83, R86: the first draw above its bound stops TBL_GEN at once: no further draw, TVALID 0, RNG recorded, and with
BUSY = 0 the host reads any value from tables 1 to 7; no other state changes but the model's own counter of free
values. -/
def Obligations.OutOfRangeDrawStopsTblGen : Prop :=
  ∀ (s : State) (n : Nat), n < Config.drawsPerGen → DrawsInRange s.rng n →
    drawBound n < (drawAnswer s.rng n).toNat → ∃ t, exec .tblGen s = .next t ∧
      t = { s.withError 5 with tables := t.tables, tvalid := false, rng := t.rng, freeCtr := t.freeCtr } ∧
      t.rng = ⟨s.rng.answers.drop (n + 1), s.rng.asked + n + 1⟩ ∧
      (∀ a : Addr, s.busy = false → 0x1200 ≤ a.toNat → a.toNat < 0x2000 →
        hostRead a t = (Config.freeByte t.freeCtr, t.afterAny)) ∧
      ∀ a, a < 0x1200 ∨ 0x2000 ≤ a → Memory.read t.tables a = Memory.read s.tables a

/-- R87: for every sequence of in-range draws each E[t] is a permutation of 0..255, and D[t] undoes it both ways. -/
def Obligations.GeneratedTablesAreInverseBijections : Prop :=
  ∀ s : State, DrawsInRange s.rng Config.drawsPerGen → ∃ t, exec .tblGen s = .next t ∧
    ∀ p, Function.Bijective (t.entry .enc p) ∧
      ∀ x, t.entry .dec p (t.entry .enc p x) = x ∧ t.entry .enc p (t.entry .dec p x) = x

/-- R88: a table whose draws all equal their bounds is the identity; one whose draws are all 0 maps x to x + 1, and its
inverse y to y - 1. -/
def Obligations.ShuffleClosedForms : Prop :=
  ∀ (s : State) (p : Fin 8), p ≠ 0 → DrawsInRange s.rng Config.drawsPerGen → ∃ t, exec .tblGen s = .next t ∧
    ((∀ k < 255, (drawAnswer s.rng (255 * (p.val - 1) + k)).toNat = 255 - k) →
      ∀ x, t.entry .enc p x = x ∧ t.entry .dec p x = x) ∧
    ((∀ k < 255, drawAnswer s.rng (255 * (p.val - 1) + k) = 0) →
      ∀ x, t.entry .enc p x = x + 1 ∧ t.entry .dec p x = x - 1)

/-- 41_table_factory.md after R88 (general knowledge, says the spec): every choice of seven permutations arises from
some in-range draws. -/
def Obligations.EveryTableSetArises : Prop :=
  ∀ π : Fin 8 → Equiv.Perm Byte, ∃ answers : List Byte, answers.length = Config.drawsPerGen ∧
    ∀ s : State, ∃ t, exec .tblGen { s with rng := { s.rng with answers := answers } } = .next t ∧ t.tvalid = true ∧
      ∀ p : Fin 8, p ≠ 0 → ∀ x, t.entry .enc p x = π p x

/-! ## Encrypt path -/

/-- R104, R100: KEYMIX XORs the key into the block byte by byte; NOKEY, NOBLOCK, in that order. -/
def Obligations.KeymixXorsKey : Prop :=
  decode 0x06 = .command .keymix ∧
    ∀ s : State, (s.kvalid = false → exec .keymix s = .next (s.withError 2)) ∧
      (s.kvalid = true → s.bwr ≠ 0xFF → exec .keymix s = .next (s.withError 4)) ∧
      (s.kvalid = true → s.bwr = 0xFF → ∃ t, exec .keymix s = .next t ∧ t = { s with block := t.block } ∧
        ∀ p, byteAt t.block p = byteAt s.block p ^^^ byteAt s.key p)

/-- R105, R101: SUB replaces each block byte by its own position's E entry, byte 0 unchanged; NOTABLES, NOBLOCK, in that
order. -/
def Obligations.SubReplacesByEntry : Prop :=
  decode 0x07 = .command .sub ∧
    ∀ s : State, (s.tvalid = false → exec .sub s = .next (s.withError 3)) ∧
      (s.tvalid = true → s.bwr ≠ 0xFF → exec .sub s = .next (s.withError 4)) ∧
      (s.tvalid = true → s.bwr = 0xFF → ∃ t, exec .sub s = .next t ∧ t = { s with block := t.block } ∧
        (∀ p, byteAt t.block p = s.entry .enc p (byteAt s.block p)) ∧ byteAt t.block 0 = byteAt s.block 0)

/-- R106, R102: ROTL rotates the whole 64-bit block left by one bit, byte 0 most significant, and does it byte by byte
as the source says; NOBLOCK. -/
def Obligations.RotlRotatesWholeBlockLeft : Prop :=
  decode 0x09 = .command .rotl ∧
    ∀ s : State, (s.bwr ≠ 0xFF → exec .rotl s = .next (s.withError 4)) ∧
      (s.bwr = 0xFF → ∃ t, exec .rotl s = .next t ∧ t = { s with block := t.block } ∧
        block64 t.block = (block64 s.block).rotateLeft 1 ∧
        ∀ p : Fin 8, ∀ j < 8, (byteAt t.block p).getLsbD j =
          if j = 0 then (byteAt s.block (p + 1)).getLsbD 7 else (byteAt s.block p).getLsbD (j - 1))

/-- R106: 64 ROTL commands in a row restore any block, and so do 64 ROTR commands (R123). -/
def Obligations.SixtyFourRotationsRestoreBlock : Prop :=
  ∀ s : State, s.bwr = 0xFF → runCommands (List.replicate 64 .rotl) s = .next s ∧
    runCommands (List.replicate 64 .rotr) s = .next s

/-- R107, R103: ENC_ROUND is key mixing, substitution and left rotation, in that order; NOKEY, NOTABLES, NOBLOCK, in
that order. -/
def Obligations.EncRoundIsMixSubRotate : Prop :=
  decode 0x0B = .command .encRound ∧
    ∀ s : State, (s.kvalid = false → exec .encRound s = .next (s.withError 2)) ∧
      (s.kvalid = true → s.tvalid = false → exec .encRound s = .next (s.withError 3)) ∧
      (s.kvalid = true → s.tvalid = true → s.bwr ≠ 0xFF → exec .encRound s = .next (s.withError 4)) ∧
      (s.kvalid = true → s.tvalid = true → s.bwr = 0xFF → ∃ t, exec .encRound s = .next t ∧
        t = { s with block := t.block } ∧ runCommands [.keymix, .sub, .rotl] s = .next t)

/-- R108, R3: ENCRYPT is 16 encryption rounds with the same key and tables; NOKEY, NOTABLES, NOBLOCK, in that order. -/
def Obligations.EncryptIsSixteenRounds : Prop :=
  decode 0x04 = .command .encrypt ∧
    ∀ s : State, (s.kvalid = false → exec .encrypt s = .next (s.withError 2)) ∧
      (s.kvalid = true → s.tvalid = false → exec .encrypt s = .next (s.withError 3)) ∧
      (s.kvalid = true → s.tvalid = true → s.bwr ≠ 0xFF → exec .encrypt s = .next (s.withError 4)) ∧
      (s.kvalid = true → s.tvalid = true → s.bwr = 0xFF → ∃ t, exec .encrypt s = .next t ∧
        t = { s with block := t.block } ∧ runCommands (List.replicate 16 .encRound) s = .next t)

/-- R109: with identity tables one round maps v to rotl1(v ^ K), and ENCRYPT maps v to
rotl16(v) ^ (rotl16(K) ^ ... ^ rotl1(K)), where rotlN is N applications of rotl1. -/
def Obligations.IdentityTablesMakeEncryptAffine : Prop :=
  (∀ (v : Quad) (n : Nat), n < 64 → (fun w : Quad => w.rotateLeft 1)^[n] v = v.rotateLeft n) ∧
  ∀ s : State, s.kvalid = true → s.tvalid = true → s.bwr = 0xFF → (∀ p x, s.entry .enc p x = x) →
    (∃ t, exec .encRound s = .next t ∧ block64 t.block = (block64 s.block ^^^ block64 s.key).rotateLeft 1) ∧
    ∃ t, exec .encrypt s = .next t ∧
      block64 t.block = (block64 s.block).rotateLeft 16 ^^^ rotationSum (block64 s.key) 16

/-! ## Decrypt path -/

/-- R123, R120: ROTR rotates the whole 64-bit block right by one bit, byte 0 most significant, and does it byte by byte;
NOBLOCK. -/
def Obligations.RotrRotatesWholeBlockRight : Prop :=
  decode 0x0A = .command .rotr ∧
    ∀ s : State, (s.bwr ≠ 0xFF → exec .rotr s = .next (s.withError 4)) ∧
      (s.bwr = 0xFF → ∃ t, exec .rotr s = .next t ∧ t = { s with block := t.block } ∧
        block64 t.block = (block64 s.block).rotateRight 1 ∧
        ∀ p : Fin 8, ∀ j < 8, (byteAt t.block p).getLsbD j =
          if j = 7 then (byteAt s.block (p + 7)).getLsbD 0 else (byteAt s.block p).getLsbD (j + 1))

/-- R120: each rotation undoes the other, for every block. -/
def Obligations.RotationsUndoEachOther : Prop :=
  ∀ s : State, s.bwr = 0xFF → runCommands [.rotl, .rotr] s = .next s ∧ runCommands [.rotr, .rotl] s = .next s

/-- R124, R121: INVSUB replaces each block byte by its own position's D entry, byte 0 unchanged; NOTABLES, NOBLOCK, in
that order. -/
def Obligations.InvsubReplacesByEntry : Prop :=
  decode 0x08 = .command .invsub ∧
    ∀ s : State, (s.tvalid = false → exec .invsub s = .next (s.withError 3)) ∧
      (s.tvalid = true → s.bwr ≠ 0xFF → exec .invsub s = .next (s.withError 4)) ∧
      (s.tvalid = true → s.bwr = 0xFF → ∃ t, exec .invsub s = .next t ∧ t = { s with block := t.block } ∧
        (∀ p, byteAt t.block p = s.entry .dec p (byteAt s.block p)) ∧ byteAt t.block 0 = byteAt s.block 0)

/-- R121, R105, R104: with valid tables SUB then INVSUB, and INVSUB then SUB, restore the block, and KEYMIX twice does. -/
def Obligations.StepsUndoEachOther : Prop :=
  ∀ s : State, s.bwr = 0xFF →
    (s.Inv → s.tvalid = true →
      runCommands [.sub, .invsub] s = .next s ∧ runCommands [.invsub, .sub] s = .next s) ∧
    (s.kvalid = true → runCommands [.keymix, .keymix] s = .next s)

/-- R125, R122: DEC_ROUND is right rotation, inverse substitution and key mixing, in that order; NOKEY, NOTABLES,
NOBLOCK, in that order. -/
def Obligations.DecRoundIsRotateInvsubMix : Prop :=
  decode 0x0C = .command .decRound ∧
    ∀ s : State, (s.kvalid = false → exec .decRound s = .next (s.withError 2)) ∧
      (s.kvalid = true → s.tvalid = false → exec .decRound s = .next (s.withError 3)) ∧
      (s.kvalid = true → s.tvalid = true → s.bwr ≠ 0xFF → exec .decRound s = .next (s.withError 4)) ∧
      (s.kvalid = true → s.tvalid = true → s.bwr = 0xFF → ∃ t, exec .decRound s = .next t ∧
        t = { s with block := t.block } ∧ runCommands [.rotr, .invsub, .keymix] s = .next t)

/-- R126, R3: DECRYPT is 16 decryption rounds with the same key and tables; NOKEY, NOTABLES, NOBLOCK, in that order. -/
def Obligations.DecryptIsSixteenRounds : Prop :=
  decode 0x05 = .command .decrypt ∧
    ∀ s : State, (s.kvalid = false → exec .decrypt s = .next (s.withError 2)) ∧
      (s.kvalid = true → s.tvalid = false → exec .decrypt s = .next (s.withError 3)) ∧
      (s.kvalid = true → s.tvalid = true → s.bwr ≠ 0xFF → exec .decrypt s = .next (s.withError 4)) ∧
      (s.kvalid = true → s.tvalid = true → s.bwr = 0xFF → ∃ t, exec .decrypt s = .next t ∧
        t = { s with block := t.block } ∧ runCommands (List.replicate 16 .decRound) s = .next t)

/-- R127: the round trip, for every block with valid key and tables: one round and the whole cipher, both ways; and
ENCRYPT and DECRYPT are bijections on the blocks. -/
def Obligations.DecryptUndoesEncrypt : Prop :=
  ∀ s : State, s.Inv → s.kvalid = true → s.tvalid = true → s.bwr = 0xFF →
    runCommands [.encRound, .decRound] s = .next s ∧ runCommands [.encrypt, .decrypt] s = .next s ∧
    runCommands [.decrypt, .encrypt] s = .next s ∧
    (∀ c : Bytes8, ∃! b : Bytes8, exec .encrypt { s with block := b } = .next { s with block := c }) ∧
    ∀ c : Bytes8, ∃! b : Bytes8, exec .decrypt { s with block := b } = .next { s with block := c }

/-- R5, R39: byte p of the block is bits [63 - 8p : 56 - 8p] of its 64-bit view, and the two views are inverse. -/
def Obligations.BlockViewsAreInverse : Prop :=
  (∀ b : Bytes8, ofBlock64 (block64 b) = b) ∧ (∀ v : Quad, block64 (ofBlock64 v) = v) ∧
    (∀ (b : Bytes8) (p : Fin 8), byteAt b p = (block64 b).extractLsb' (56 - 8 * p.val) 8) ∧
    ∀ (v : Quad) (p : Fin 8), byteAt (ofBlock64 v) p = v.extractLsb' (56 - 8 * p.val) 8

/-! ## Errors and flags -/

/-- R23, R12: the bits of STATUS, and BVALID. -/
def Obligations.StatusLayout : Prop :=
  ∀ s : State, s.status.getLsbD 0 = s.busy ∧ s.status.getLsbD 1 = s.kvalid ∧ s.status.getLsbD 2 = s.tvalid ∧
    s.status.getLsbD 3 = s.bvalid ∧ s.status.extractLsb' 4 3 = s.err ∧ s.status.getLsbD 7 = false ∧
    (s.bvalid = true ↔ ∀ p : Fin 8, s.bwr.getLsbD p.val = true) ∧ State.reset.status = 0x00 ∧
    ∀ v : Byte, hostWrite 0x0002 v s = s

/-- R154, R153: the engine step checks ILLEGAL, NOKEY, NOTABLES, NOBLOCK in that order and records the first that applies,
changing nothing else (but BUSY); TBL_GEN makes none of these checks and records RNG alone. -/
def Obligations.FirstFailingCheckIsRecorded : Prop :=
  (∀ s : State, s.engineNext → s.busy = true → 0x0E ≤ s.lcmd.toNat →
    step s = .next { s.afterTurn.withError 1 with busy := false }) ∧
    (∀ (i : Instr) (s : State), i ∈ keyCommands → s.kvalid = false → exec i s = .next (s.withError 2)) ∧
    (∀ (i : Instr) (s : State), i ∈ tableCommands → (i ∈ keyCommands → s.kvalid = true) → s.tvalid = false →
      exec i s = .next (s.withError 3)) ∧
    (∀ (i : Instr) (s : State), i ∈ blockCommands → (i ∈ keyCommands → s.kvalid = true) →
      (i ∈ tableCommands → s.tvalid = true) → s.bwr ≠ 0xFF → exec i s = .next (s.withError 4)) ∧
    ∀ (i : Instr) (s : State), (i ∈ keyCommands → s.kvalid = true) → (i ∈ tableCommands → s.tvalid = true) →
      (i ∈ blockCommands → s.bwr = 0xFF) → i ≠ .errClear → ∃ t, exec i s = .next t ∧
        (t.err = s.err ∨ (i = .tblGen ∧ s.err = 0 ∧ t.err = 5))

/-- R152, R22, R156: ERR keeps the first error: a step that changes a recorded error sets it to 0, and is an ERR_CLEAR or
the reset input. -/
def Obligations.ErrIsSticky : Prop :=
  ∀ s t : State, step s = .next t → s.err ≠ 0 → t.err ≠ s.err →
    t.err = 0 ∧ (s.resetNext ∨ (s.engineNext ∧ s.busy = true ∧ decode s.lcmd = .command .errClear))

/-- R155: commands execute normally while ERR is not 0: ERR enters no other part of the result. -/
def Obligations.ErrDoesNotChangeCommands : Prop :=
  ∀ (i : Instr) (s : State) (e : BitVec 3), ∃ t u, exec i s = .next t ∧ exec i { s with err := e } = .next u ∧
    u = { t with err := u.err }

/-- R53: every command but KEY_ABSORB ignores ARG. -/
def Obligations.OnlyKeyAbsorbReadsArg : Prop :=
  ∀ (i : Instr) (s : State) (v : Byte), i ≠ .keyAbsorb → ∃ t, exec i s = .next t ∧
    exec i { s with arg := v } = .next { t with arg := v }

/-- R10, R11, R13 to R16, R18 to R20: which command may write which register; no command writes BWR, ARG, LCMD or BUSY, or
touches the host or the interleaving. -/
def Obligations.CommandsWriteOnlyTheirState : Prop :=
  ∀ (i : Instr) (s : State), ∃ t, exec i s = .next t ∧
    t.bwr = s.bwr ∧ t.arg = s.arg ∧ t.lcmd = s.lcmd ∧ t.busy = s.busy ∧ t.host = s.host ∧ t.sched = s.sched ∧
    (i ∉ blockCommands → t.block = s.block) ∧
    (i ∉ [Instr.keyClear, .keyAbsorb] → t.key = s.key ∧ t.kptr = s.kptr) ∧
    (i ≠ .keyClear → t.kvalid = s.kvalid) ∧ (i = .keyClear → t.kvalid = true) ∧
    (i ≠ .tblGen → t.tables = s.tables ∧ t.tvalid = s.tvalid ∧ t.rng = s.rng ∧ t.freeCtr = s.freeCtr ∧
      ∀ a, Memory.read t.tables a = Memory.read s.tables a)

/-! ## Reset -/

/-- R171: the values that the spec states for reset; the host reads any value from BLOCK, KEY and tables 1 to 7, and
the identity from table pair 0. The zeros that the model names for the unspecified data are not part of it (log
entries 1 and 2). -/
def Obligations.ResetStateIsAsStated : Prop :=
  State.reset.bwr = 0x00 ∧ State.reset.kptr = 0 ∧ State.reset.kvalid = false ∧ State.reset.tvalid = false ∧
    State.reset.arg = 0x00 ∧ State.reset.lcmd = 0x00 ∧ State.reset.busy = false ∧ State.reset.err = 0 ∧
    State.reset.status = 0x00 ∧ (∀ d x, State.reset.entry d 0 x = x) ∧
    ∀ a : Addr, (0x0008 ≤ a.toNat ∧ a.toNat < 0x0018) ∨ (0x1200 ≤ a.toNat ∧ a.toNat < 0x2000) →
      hostRead a State.reset = (Config.freeByte State.reset.freeCtr, State.reset.afterAny)

/-- R170: the reset input, at any time, puts the engine in the reset state of R171 and abandons a pending command,
which makes no further draw; no other step clears KVALID or a bit of BWR. -/
def Obligations.OnlyResetClearsKvalidAndBwr : Prop :=
  (∀ s : State, s.resetNext → ∃ t, step s = .next t ∧ t.bwr = 0x00 ∧ t.kptr = 0 ∧ t.kvalid = false ∧
    t.tvalid = false ∧ t.arg = 0x00 ∧ t.lcmd = 0x00 ∧ t.busy = false ∧ t.err = 0 ∧ t.status = 0x00 ∧
    t.rng = s.rng) ∧
    ∀ s t : State, step s = .next t → ¬ s.resetNext → (s.kvalid = true → t.kvalid = true) ∧
      ∀ p : Fin 8, s.bwr.getLsbD p.val = true → t.bwr.getLsbD p.val = true

/-- The model's choice (log entry 10): the reset input resets the engine alone; the host with its record, the random
source and the free values go on as they were, and its turn is used up. -/
def Obligations.ResetInputLeavesOtherAgents : Prop :=
  ∀ s : State, s.resetNext → ∃ t, step s = .next t ∧ t.host = s.host ∧ t.rng = s.rng ∧ t.freeCtr = s.freeCtr ∧
    t.sched = s.sched.tail

/-! ## Host interface -/

/-- R32: the effect of a host write with BUSY = 0. -/
def Obligations.IdleHostWrite : Prop :=
  ∀ (s : State) (a : Addr) (v : Byte), s.busy = false →
    (a = 0x0000 → hostWrite a v s = { s with lcmd := v, busy := true }) ∧
    (a = 0x0001 → hostWrite a v s = { s with arg := v }) ∧
    (∀ p : Fin 8, a.toNat = 0x0008 + p.val → ∃ t, hostWrite a v s = t ∧ t = { s with block := t.block, bwr := t.bwr } ∧
      ∀ q : Fin 8, byteAt t.block q = (if q = p then v else byteAt s.block q) ∧
        t.bwr.getLsbD q.val = (decide (q = p) || s.bwr.getLsbD q.val)) ∧
    (0x0002 ≤ a.toNat ∧ a.toNat < 0x0008 ∨ 0x0010 ≤ a.toNat → hostWrite a v s = s)

/-- R33: a host write with BUSY = 1 changes nothing but ERR. -/
def Obligations.BusyHostWrite : Prop :=
  ∀ (s : State) (a : Addr) (v : Byte), s.busy = true →
    (a.toNat ≤ 0x0001 ∨ (0x0008 ≤ a.toNat ∧ a.toNat < 0x0010) → hostWrite a v s = s.withError 6) ∧
    ((0x0002 ≤ a.toNat ∧ a.toNat < 0x0008) ∨ 0x0010 ≤ a.toNat → hostWrite a v s = s)

/-- R34: a host read with BUSY = 0. -/
def Obligations.IdleHostRead : Prop :=
  ∀ (s : State) (a : Addr), s.busy = false →
    (a = 0x0000 → hostRead a s = (0x00, s)) ∧ (a = 0x0001 → hostRead a s = (s.arg, s)) ∧
    (a = 0x0002 → hostRead a s = (s.status, s)) ∧ (a = 0x0003 → hostRead a s = (s.kptr.setWidth 8, s)) ∧
    (a = 0x0004 → hostRead a s = (s.bwr, s)) ∧
    (∀ p : Fin 8, a.toNat = 0x0008 + p.val →
      (s.bwr.getLsbD p.val = true → hostRead a s = (byteAt s.block p, s)) ∧
      (s.bwr.getLsbD p.val = false → hostRead a s = (Config.freeByte s.freeCtr, s.afterAny))) ∧
    (∀ p : Fin 8, a.toNat = 0x0010 + p.val →
      (s.kvalid = true → hostRead a s = (byteAt s.key p, s)) ∧
      (s.kvalid = false → hostRead a s = (Config.freeByte s.freeCtr, s.afterAny))) ∧
    (∀ (p : Fin 8) (d : Dir) (x : Byte),
      a.toNat = 0x1000 + 0x200 * p.val + (if d = .dec then 0x100 else 0) + x.toNat →
      (p = 0 → hostRead a s = (x, s)) ∧
      (p ≠ 0 → s.tvalid = true → hostRead a s = (s.entry d p x, s)) ∧
      (p ≠ 0 → s.tvalid = false → hostRead a s = (Config.freeByte s.freeCtr, s.afterAny))) ∧
    ((0x0005 ≤ a.toNat ∧ a.toNat ≤ 0x0007) ∨ (0x0018 ≤ a.toNat ∧ a.toNat ≤ 0x0FFF) ∨ 0x2000 ≤ a.toNat →
      hostRead a s = (0x00, s))

/-- R35: a host read with BUSY = 1: STATUS, ARG, BWR and the constant reads as ever, any value for KPTR, BLOCK, KEY and
the table window, whichever command is pending. -/
def Obligations.BusyHostRead : Prop :=
  ∀ (s : State) (a : Addr), s.busy = true →
    (a = 0x0000 → hostRead a s = (0x00, s)) ∧ (a = 0x0001 → hostRead a s = (s.arg, s)) ∧
    (a = 0x0002 → hostRead a s = (s.status, s)) ∧ (a = 0x0004 → hostRead a s = (s.bwr, s)) ∧
    ((0x0005 ≤ a.toNat ∧ a.toNat ≤ 0x0007) ∨ (0x0018 ≤ a.toNat ∧ a.toNat ≤ 0x0FFF) ∨ 0x2000 ≤ a.toNat →
      hostRead a s = (0x00, s)) ∧
    (a = 0x0003 ∨ (0x0008 ≤ a.toNat ∧ a.toNat < 0x0018) ∨ (0x1000 ≤ a.toNat ∧ a.toNat < 0x2000) →
      hostRead a s = (Config.freeByte s.freeCtr, s.afterAny))

/-- R36: how the table window decodes an address, what it reads with BUSY = 0, and that writes to it are ignored. -/
def Obligations.TableWindow : Prop :=
  ∀ (s : State) (a : Addr) (v : Byte), 0x1000 ≤ a.toNat → a.toNat < 0x2000 →
    ∃ (p : Fin 8) (d : Dir) (x : Byte), p.val = (a.extractLsb' 9 3).toNat ∧ (d = .dec ↔ a.getLsbD 8 = true) ∧
      x = a.extractLsb' 0 8 ∧
      a.toNat = 0x1000 + 0x200 * p.val + 0x100 * (if d = .dec then 1 else 0) + x.toNat ∧
      (s.busy = false → p = 0 → hostRead a s = (x, s)) ∧
      (s.busy = false → p ≠ 0 → s.tvalid = true → hostRead a s = (s.entry d p x, s)) ∧
      (s.busy = false → p ≠ 0 → s.tvalid = false → hostRead a s = (Config.freeByte s.freeCtr, s.afterAny)) ∧
      hostWrite a v s = s

/-- R42: a read has no side effect on what any read returns, and a second read of the same address returns the same
value, except where it is any. -/
def Obligations.ReadsAreIdempotent : Prop :=
  ∀ (s : State) (a b : Addr), (hostRead b s).2 = { s with freeCtr := (hostRead b s).2.freeCtr } ∧
    ((hostRead a (hostRead b s).2).1 = (hostRead a s).1 ∨
      hostRead a (hostRead b s).2 = (Config.freeByte (hostRead b s).2.freeCtr, (hostRead b s).2.afterAny))

/-- R56: the statements of a host script: one host write, one recorded host read, one command write, a label without a
transaction, and the host's branch. The model's choice (log entry 5): the read of a bnz is recorded too, a label takes a
turn of the host, and a label that stands twice names its first place. A taken bnz to a label that the script does not
have is left out (log entry 8). -/
def Obligations.HostScriptStatements : Prop :=
  ∀ (s : State) (st : HostStmt), s.hostNext → s.host.failed = false → s.host.script[s.host.pos]? = some st →
    (∀ a v, st = .wr a v → step s = .next ((hostWrite a v s.afterTurn).hostAt (s.host.pos + 1))) ∧
    (∀ i, st = .cmd i → step s = .next ((hostWrite 0x0000 (encode i) s.afterTurn).hostAt (s.host.pos + 1))) ∧
    (∀ l, st = .label l → step s = .next (s.afterTurn.hostAt (s.host.pos + 1))) ∧
    (∀ a, st = .rd a → ∃ v u, hostRead a s.afterTurn = (v, u) ∧
      step s = .next ((u.withRead a v).hostAt (s.host.pos + 1))) ∧
    (∀ l a mask, st = .bnz l a mask → ∃ v u, hostRead a s.afterTurn = (v, u) ∧
      (v &&& mask = 0 → step s = .next ((u.withRead a v).hostAt (s.host.pos + 1))) ∧
      ∀ k, v &&& mask ≠ 0 → s.host.script[k]? = some (.label l) → (∀ j < k, s.host.script[j]? ≠ some (.label l)) →
        step s = .next ((u.withRead a v).hostAt k))

/-- R57: the expansions of the pseudo-instructions, and what `check` does. The model's choices: the fresh label numbers
are n, n + 1, ... one after another (log entry 13), and the read of a check is recorded (log entry 5). -/
def Obligations.PseudoInstructionExpansions : Prop :=
  (∀ n, (expandOne .wait n).1 = [.label n, .bnz n 0x0002 0x01]) ∧
    (∀ i n, (expandOne (.doCmd i) n).1 = [.cmd i, .label n, .bnz n 0x0002 0x01]) ∧
    (∀ n, (expandOne (.absorb []) n).1 = []) ∧
    (∀ c cs n, (expandOne (.absorb (c :: cs)) n).1 =
      .wr 0x0001 c :: ((expandOne (.doCmd .keyAbsorb) n).1 ++ (expandOne (.absorb cs) (n + 1)).1)) ∧
    (∀ cs n, (expandOne (.derive cs) n).1 =
      (expandOne (.doCmd .keyClear) n).1 ++ (expandOne (.absorb cs) (n + 1)).1) ∧
    (∀ b n, (expandOne (.loadblk b) n).1 =
      [.wr 0x0008 (byteAt b 0), .wr 0x0009 (byteAt b 1), .wr 0x000A (byteAt b 2), .wr 0x000B (byteAt b 3),
       .wr 0x000C (byteAt b 4), .wr 0x000D (byteAt b 5), .wr 0x000E (byteAt b 6), .wr 0x000F (byteAt b 7)]) ∧
    (∀ n, (expandOne .readblk n).1 =
      [.rd 0x0008, .rd 0x0009, .rd 0x000A, .rd 0x000B, .rd 0x000C, .rd 0x000D, .rd 0x000E, .rd 0x000F]) ∧
    (∀ n, (expandOne .readkey n).1 =
      [.rd 0x0010, .rd 0x0011, .rd 0x0012, .rd 0x0013, .rd 0x0014, .rd 0x0015, .rd 0x0016, .rd 0x0017]) ∧
    ∀ s : State, s.hostNext → s.host.failed = false → s.host.script[s.host.pos]? = some .check →
      ∃ t, step s = .next t ∧ t.host.failed = decide (s.err ≠ 0) ∧ t.host.pos = s.host.pos + 1 ∧
        t.host.reads = s.host.reads ++ [(0x0002, s.status)] ∧ t = { s.afterTurn with host := t.host }

/-- R57: a script written with pseudo-instructions expands to a well-formed script, its label numbers being fresh, if
the statements it writes itself have their labels. Which fresh numbers are taken is the model's choice (log entry 13). -/
def Obligations.ExpansionsAreWellFormed : Prop :=
  ∀ lines : List Pseudo,
    scriptWellFormed (lines.filterMap fun ps => match ps with | .stmt st => some st | _ => none) = true →
      scriptWellFormed (expandScript lines) = true

/-! ## Runs -/

/-- R176, R33: with no reset turn listed a pending command is performed. After at most as many steps as the interleaving
has turns the engine's turn is next with the same opcode pending, and the next step is that command's own effect with
BUSY cleared, or ILLEGAL. Until then nothing has changed but the host, the interleaving, ERR and the counter of free
values. That the engine moves when the interleaving says nothing more is the model's choice (log entry 4). -/
def Obligations.PendingCommandIsPerformed : Prop :=
  ∀ s : State, scriptWellFormed s.host.script = true → s.busy = true → Turn.reset ∉ s.sched →
    ∃ k u, k ≤ s.sched.length ∧ runSteps k s = .next u ∧ u.engineNext ∧
      u = { s with host := u.host, sched := u.sched, err := u.err, freeCtr := u.freeCtr } ∧
      (∀ i, decode s.lcmd = .command i → ∃ t, exec i u.afterTurn = .next t ∧
        runSteps (k + 1) s = .next { t with busy := false }) ∧
      (0x0E ≤ s.lcmd.toNat → runSteps (k + 1) s = .next { u.afterTurn.withError 1 with busy := false })

/-- R180: a run that has ended stays ended, and its observation no step but the reset input's changes. That a host whose
script has failed makes no further access is the model's choice (log entry 9). -/
def Obligations.EndedRunIsFinal : Prop :=
  ∀ s : State, s.runEnded = true → ¬ s.resetNext →
    ∃ t, step s = .next t ∧ t.runEnded = true ∧ t.observation = s.observation

/-- R180, R150, R152: a run that starts with ERR = 0 and ends with an error code has had that error: at some step of
it ERR was 0 and the cause that R150 gives for the code was met. -/
def Obligations.RunThatEndsInErrorHasHadIt : Prop :=
  ∀ (n : Nat) (s t : State), runSteps n s = .next t → s.err = 0 → t.err ≠ 0 →
    ∃ k u, k < n ∧ runSteps k s = .next u ∧ u.err = 0 ∧ (u.engineRaises t.err ∨ u.hostRaises t.err)
end

