-- ==== Sys2Proof/Laws/Memory.lean ====
section
/-! SUPPORT. Table memory: a read after a store, the canonical form kept by every operation, and that two canonical
memories that read alike are equal. -/

namespace Sys2Proof.Machine

/-! ## Reading -/

theorem Memory.read_of_forall_ne {m : Memory} {a : Nat} (h : ∀ c ∈ m, c.1 ≠ a) :
    Memory.read m a = Memory.unlisted := by
  induction m with
  | nil => rfl
  | cons c m ih =>
    obtain ⟨b, v⟩ := c
    have hb : a ≠ b := fun e => h (b, v) (by simp) e.symm
    simp only [Memory.read, if_neg hb]
    exact ih fun c hc => h c (List.mem_cons_of_mem _ hc)

theorem Memory.read_append_of_ne_left {m₁ m₂ : Memory} {a : Nat} (h : ∀ c ∈ m₁, c.1 ≠ a) :
    Memory.read (m₁ ++ m₂) a = Memory.read m₂ a := by
  induction m₁ with
  | nil => rfl
  | cons c m ih =>
    obtain ⟨b, v⟩ := c
    have hb : a ≠ b := fun e => h (b, v) (by simp) e.symm
    simp only [List.cons_append, Memory.read, if_neg hb]
    exact ih fun c hc => h c (List.mem_cons_of_mem _ hc)

theorem Memory.read_append_of_ne_right {m₁ m₂ : Memory} {a : Nat} (h : ∀ c ∈ m₂, c.1 ≠ a) :
    Memory.read (m₁ ++ m₂) a = Memory.read m₁ a := by
  induction m₁ with
  | nil => exact Memory.read_of_forall_ne h
  | cons c m ih =>
    obtain ⟨b, v⟩ := c
    simp only [List.cons_append, Memory.read, ih]

/-- Keeping the cells whose address satisfies P keeps what those addresses read as. -/
theorem Memory.read_filter (P : Nat → Bool) (m : Memory) (a : Nat) (h : P a = true) :
    Memory.read (m.filter fun c => P c.1) a = Memory.read m a := by
  induction m with
  | nil => rfl
  | cons c m ih =>
    obtain ⟨b, v⟩ := c
    by_cases hb : P b = true
    · simp only [List.filter_cons, hb, if_true, Memory.read, ih]
    · have hne : a ≠ b := by rintro rfl; exact hb h
      simp only [List.filter_cons, hb, Memory.read, if_neg hne]
      exact ih

theorem Memory.mem_cells {c : Host.Cell} {a : Nat} {vs : List Byte} (h : c ∈ Memory.cells a vs) :
    a ≤ c.1 ∧ c.1 < a + vs.length := by
  induction vs generalizing a with
  | nil => simp [Memory.cells] at h
  | cons v vs ih =>
    simp only [Memory.cells] at h
    split at h
    · have := ih h; simp only [List.length_cons]; omega
    · rcases List.mem_cons.mp h with rfl | h
      · simp
      · have := ih h; simp only [List.length_cons]; omega

theorem Memory.read_cells (a : Nat) (vs : List Byte) (i : Nat) (h : i < vs.length) :
    Memory.read (Memory.cells a vs) (a + i) = vs[i] := by
  induction vs generalizing a i with
  | nil => simp at h
  | cons v vs ih =>
    cases i with
    | zero =>
      simp only [Memory.cells, Nat.add_zero, List.getElem_cons_zero]
      split
      · next hv =>
        rw [Memory.read_of_forall_ne, hv]
        intro c hc
        have := Memory.mem_cells hc
        omega
      · simp [Memory.read]
    | succ i =>
      have hi : i < vs.length := by simpa using h
      have e : a + (i + 1) = a + 1 + i := by omega
      simp only [Memory.cells, List.getElem_cons_succ]
      split
      · rw [e]; exact ih (a + 1) i hi
      · rw [Memory.read, if_neg (by omega), e]; exact ih (a + 1) i hi

/-- A read inside the stored bytes gives the byte stored there. -/
theorem Memory.read_store_inside (m : Memory) (a : Nat) (vs : List Byte) (i : Nat) (h : i < vs.length) :
    Memory.read (Memory.store m a vs) (a + i) = vs[i] := by
  rw [Memory.store, Memory.read_append_of_ne_right, Memory.read_append_of_ne_left, Memory.read_cells a vs i h]
  · intro c hc
    have := (List.mem_filter.mp hc).2
    simp only [decide_eq_true_eq] at this
    omega
  · intro c hc
    have := (List.mem_filter.mp hc).2
    simp only [decide_eq_true_eq] at this
    omega

/-- A read outside the stored bytes gives what it gave before. -/
theorem Memory.read_store_outside (m : Memory) (a : Nat) (vs : List Byte) (x : Nat)
    (h : x < a ∨ a + vs.length ≤ x) : Memory.read (Memory.store m a vs) x = Memory.read m x := by
  have hcells : ∀ c ∈ Memory.cells a vs, c.1 ≠ x := fun c hc e => by
    have := Memory.mem_cells hc
    omega
  rw [Memory.store]
  rcases h with h | h
  · rw [Memory.read_append_of_ne_right, Memory.read_append_of_ne_right hcells]
    · exact Memory.read_filter (fun b => decide (b < a)) m x (by simpa using h)
    · intro c hc
      have := (List.mem_filter.mp hc).2
      simp only [decide_eq_true_eq] at this
      omega
  · rw [List.append_assoc, Memory.read_append_of_ne_left, Memory.read_append_of_ne_left hcells]
    · exact Memory.read_filter (fun b => decide (a + vs.length ≤ b)) m x (by simpa using h)
    · intro c hc
      have := (List.mem_filter.mp hc).2
      simp only [decide_eq_true_eq] at this
      omega

/-! ## The canonical form -/

theorem Memory.risingFrom_cons {lo a : Nat} {v : Byte} {m : Memory} :
    Memory.risingFrom lo ((a, v) :: m) = true ↔
      lo ≤ a ∧ a < Memory.limit ∧ v ≠ Memory.unlisted ∧ Memory.risingFrom (a + 1) m = true := by
  simp [Memory.risingFrom, and_assoc]

theorem Memory.risingFrom_weaken {lo lo' : Nat} {m : Memory} (h : lo' ≤ lo)
    (hm : Memory.risingFrom lo m = true) : Memory.risingFrom lo' m = true := by
  cases m with
  | nil => rfl
  | cons c m =>
    obtain ⟨a, v⟩ := c
    rw [Memory.risingFrom_cons] at hm ⊢
    exact ⟨by omega, hm.2⟩

theorem Memory.le_of_mem_risingFrom {lo : Nat} {m : Memory} (hm : Memory.risingFrom lo m = true)
    {c : Host.Cell} (hc : c ∈ m) : lo ≤ c.1 := by
  induction m generalizing lo with
  | nil => simp at hc
  | cons d m ih =>
    obtain ⟨a, v⟩ := d
    rw [Memory.risingFrom_cons] at hm
    rcases List.mem_cons.mp hc with rfl | hc
    · exact hm.1
    · have := ih hm.2.2.2 hc
      omega

theorem Memory.risingFrom_filter (P : Host.Cell → Bool) {lo : Nat} {m : Memory}
    (hm : Memory.risingFrom lo m = true) : Memory.risingFrom lo (m.filter P) = true := by
  induction m generalizing lo with
  | nil => rfl
  | cons d m ih =>
    obtain ⟨a, v⟩ := d
    rw [Memory.risingFrom_cons] at hm
    rw [List.filter_cons]
    split
    · rw [Memory.risingFrom_cons]
      exact ⟨hm.1, hm.2.1, hm.2.2.1, ih hm.2.2.2⟩
    · exact Memory.risingFrom_weaken (by omega) (ih hm.2.2.2)

/-- A lower bound on every address may be taken as the start. -/
theorem Memory.risingFrom_raise {lo lo' : Nat} {m : Memory} (hm : Memory.risingFrom lo m = true)
    (h : ∀ c ∈ m, lo' ≤ c.1) : Memory.risingFrom lo' m = true := by
  cases m with
  | nil => rfl
  | cons d m =>
    obtain ⟨a, v⟩ := d
    rw [Memory.risingFrom_cons] at hm ⊢
    exact ⟨h (a, v) (by simp), hm.2⟩

theorem Memory.risingFrom_append {lo mid : Nat} {m₁ m₂ : Memory} (h₁ : Memory.risingFrom lo m₁ = true)
    (h₂ : Memory.risingFrom mid m₂ = true) (hlo : lo ≤ mid) (hlt : ∀ c ∈ m₁, c.1 < mid) :
    Memory.risingFrom lo (m₁ ++ m₂) = true := by
  induction m₁ generalizing lo with
  | nil => exact Memory.risingFrom_weaken hlo h₂
  | cons d m ih =>
    obtain ⟨a, v⟩ := d
    rw [Memory.risingFrom_cons] at h₁
    rw [List.cons_append, Memory.risingFrom_cons]
    have ha : a < mid := hlt (a, v) (by simp)
    exact ⟨h₁.1, h₁.2.1, h₁.2.2.1, ih h₁.2.2.2 (by omega) fun c hc => hlt c (List.mem_cons_of_mem _ hc)⟩

theorem Memory.risingFrom_cells (a : Nat) (vs : List Byte) (h : a + vs.length ≤ Memory.limit) :
    Memory.risingFrom a (Memory.cells a vs) = true := by
  induction vs generalizing a with
  | nil => rfl
  | cons v vs ih =>
    have hl : a + 1 + vs.length ≤ Memory.limit := by simp only [List.length_cons] at h; omega
    simp only [Memory.cells]
    split
    · exact Memory.risingFrom_weaken (by omega) (ih (a + 1) hl)
    · next hv =>
      rw [Memory.risingFrom_cons]
      exact ⟨le_refl _, by omega, hv, ih (a + 1) hl⟩

/-- Every store inside table memory keeps the canonical form. -/
theorem Memory.wf_store {m : Memory} (hm : Memory.wf m = true) {a : Nat} {vs : List Byte} (ha : 0x1200 ≤ a)
    (hl : a + vs.length ≤ Memory.limit) : Memory.wf (Memory.store m a vs) = true := by
  have hhigh : Memory.risingFrom (a + vs.length) (m.filter fun c => decide (a + vs.length ≤ c.1)) = true :=
    Memory.risingFrom_raise (Memory.risingFrom_filter _ hm) fun c hc => by
      simpa using (List.mem_filter.mp hc).2
  rw [Memory.wf, Memory.store, List.append_assoc]
  refine Memory.risingFrom_append (Memory.risingFrom_filter _ hm)
    (Memory.risingFrom_append (Memory.risingFrom_cells a vs hl) hhigh (by omega) fun c hc => (Memory.mem_cells hc).2)
    ha fun c hc => ?_
  simpa using (List.mem_filter.mp hc).2

theorem Memory.wf_nil : Memory.wf [] = true := rfl

/-- Two canonical memories that read alike are equal, so equal memories are equal data. -/
theorem Memory.risingFrom_ext {lo : Nat} {m₁ m₂ : Memory} (h₁ : Memory.risingFrom lo m₁ = true)
    (h₂ : Memory.risingFrom lo m₂ = true) (h : ∀ a, Memory.read m₁ a = Memory.read m₂ a) : m₁ = m₂ := by
  induction m₁ generalizing lo m₂ with
  | nil =>
    cases m₂ with
    | nil => rfl
    | cons d m =>
      obtain ⟨b, w⟩ := d
      rw [Memory.risingFrom_cons] at h₂
      exact absurd (by simpa [Memory.read] using (h b).symm) h₂.2.2.1
  | cons c m₁ ih =>
    obtain ⟨a, v⟩ := c
    rw [Memory.risingFrom_cons] at h₁
    cases m₂ with
    | nil => exact absurd (by simpa [Memory.read] using h a) h₁.2.2.1
    | cons d m₂ =>
      obtain ⟨b, w⟩ := d
      rw [Memory.risingFrom_cons] at h₂
      have above₁ : ∀ c ∈ m₁, a + 1 ≤ c.1 := fun c => Memory.le_of_mem_risingFrom h₁.2.2.2
      have above₂ : ∀ c ∈ m₂, b + 1 ≤ c.1 := fun c => Memory.le_of_mem_risingFrom h₂.2.2.2
      have hab : a = b := by
        rcases Nat.lt_trichotomy a b with hlt | heq | hlt
        · have := h a
          rw [Memory.read, if_pos rfl, Memory.read_of_forall_ne] at this
          · exact absurd this h₁.2.2.1
          · intro c hc e
            rcases List.mem_cons.mp hc with rfl | hc
            · simp only at e; omega
            · have := above₂ c hc; omega
        · exact heq
        · have := h b
          rw [Memory.read_of_forall_ne, Memory.read, if_pos rfl] at this
          · exact absurd this.symm h₂.2.2.1
          · intro c hc e
            rcases List.mem_cons.mp hc with rfl | hc
            · simp only at e; omega
            · have := above₁ c hc; omega
      subst hab
      have hvw : v = w := by simpa [Memory.read] using h a
      subst hvw
      have hrest : m₁ = m₂ := ih h₁.2.2.2 h₂.2.2.2 fun x => by
        by_cases hx : x = a
        · subst hx
          rw [Memory.read_of_forall_ne fun c hc e => by have := above₁ c hc; omega,
            Memory.read_of_forall_ne fun c hc e => by have := above₂ c hc; omega]
        · simpa [Memory.read, hx] using h x
      rw [hrest]

theorem Memory.wf_ext {m₁ m₂ : Memory} (h₁ : Memory.wf m₁ = true) (h₂ : Memory.wf m₂ = true)
    (h : ∀ a, Memory.read m₁ a = Memory.read m₂ a) : m₁ = m₂ :=
  Memory.risingFrom_ext h₁ h₂ h

end Sys2Proof.Machine
end

