-- ==== Sys2Proof/Laws/State.lean ====
section
/-! SUPPORT. One lemma per field per named update, so that no later proof unfolds a record update. -/

namespace Sys2Proof.Machine

/-! ### setBlock -/

@[simp] theorem State.setBlock_block (s : State) (b : Bytes8) : (s.setBlock b).block = b := rfl
@[simp] theorem State.setBlock_bwr (s : State) (b : Bytes8) : (s.setBlock b).bwr = s.bwr := rfl
@[simp] theorem State.setBlock_key (s : State) (b : Bytes8) : (s.setBlock b).key = s.key := rfl
@[simp] theorem State.setBlock_kptr (s : State) (b : Bytes8) : (s.setBlock b).kptr = s.kptr := rfl
@[simp] theorem State.setBlock_kvalid (s : State) (b : Bytes8) : (s.setBlock b).kvalid = s.kvalid := rfl
@[simp] theorem State.setBlock_tables (s : State) (b : Bytes8) : (s.setBlock b).tables = s.tables := rfl
@[simp] theorem State.setBlock_tvalid (s : State) (b : Bytes8) : (s.setBlock b).tvalid = s.tvalid := rfl
@[simp] theorem State.setBlock_arg (s : State) (b : Bytes8) : (s.setBlock b).arg = s.arg := rfl
@[simp] theorem State.setBlock_lcmd (s : State) (b : Bytes8) : (s.setBlock b).lcmd = s.lcmd := rfl
@[simp] theorem State.setBlock_busy (s : State) (b : Bytes8) : (s.setBlock b).busy = s.busy := rfl
@[simp] theorem State.setBlock_err (s : State) (b : Bytes8) : (s.setBlock b).err = s.err := rfl
@[simp] theorem State.setBlock_host (s : State) (b : Bytes8) : (s.setBlock b).host = s.host := rfl
@[simp] theorem State.setBlock_sched (s : State) (b : Bytes8) : (s.setBlock b).sched = s.sched := rfl
@[simp] theorem State.setBlock_rng (s : State) (b : Bytes8) : (s.setBlock b).rng = s.rng := rfl
@[simp] theorem State.setBlock_freeCtr (s : State) (b : Bytes8) : (s.setBlock b).freeCtr = s.freeCtr := rfl

/-! ### setKey -/

@[simp] theorem State.setKey_block (s : State) (k : Bytes8) (p : BitVec 3) (v : Bool) : (s.setKey k p v).block = s.block := rfl
@[simp] theorem State.setKey_bwr (s : State) (k : Bytes8) (p : BitVec 3) (v : Bool) : (s.setKey k p v).bwr = s.bwr := rfl
@[simp] theorem State.setKey_key (s : State) (k : Bytes8) (p : BitVec 3) (v : Bool) : (s.setKey k p v).key = k := rfl
@[simp] theorem State.setKey_kptr (s : State) (k : Bytes8) (p : BitVec 3) (v : Bool) : (s.setKey k p v).kptr = p := rfl
@[simp] theorem State.setKey_kvalid (s : State) (k : Bytes8) (p : BitVec 3) (v : Bool) : (s.setKey k p v).kvalid = v := rfl
@[simp] theorem State.setKey_tables (s : State) (k : Bytes8) (p : BitVec 3) (v : Bool) : (s.setKey k p v).tables = s.tables := rfl
@[simp] theorem State.setKey_tvalid (s : State) (k : Bytes8) (p : BitVec 3) (v : Bool) : (s.setKey k p v).tvalid = s.tvalid := rfl
@[simp] theorem State.setKey_arg (s : State) (k : Bytes8) (p : BitVec 3) (v : Bool) : (s.setKey k p v).arg = s.arg := rfl
@[simp] theorem State.setKey_lcmd (s : State) (k : Bytes8) (p : BitVec 3) (v : Bool) : (s.setKey k p v).lcmd = s.lcmd := rfl
@[simp] theorem State.setKey_busy (s : State) (k : Bytes8) (p : BitVec 3) (v : Bool) : (s.setKey k p v).busy = s.busy := rfl
@[simp] theorem State.setKey_err (s : State) (k : Bytes8) (p : BitVec 3) (v : Bool) : (s.setKey k p v).err = s.err := rfl
@[simp] theorem State.setKey_host (s : State) (k : Bytes8) (p : BitVec 3) (v : Bool) : (s.setKey k p v).host = s.host := rfl
@[simp] theorem State.setKey_sched (s : State) (k : Bytes8) (p : BitVec 3) (v : Bool) : (s.setKey k p v).sched = s.sched := rfl
@[simp] theorem State.setKey_rng (s : State) (k : Bytes8) (p : BitVec 3) (v : Bool) : (s.setKey k p v).rng = s.rng := rfl
@[simp] theorem State.setKey_freeCtr (s : State) (k : Bytes8) (p : BitVec 3) (v : Bool) : (s.setKey k p v).freeCtr = s.freeCtr := rfl

/-! ### setTables -/

@[simp] theorem State.setTables_block (s : State) (m : Memory) (v : Bool) : (s.setTables m v).block = s.block := rfl
@[simp] theorem State.setTables_bwr (s : State) (m : Memory) (v : Bool) : (s.setTables m v).bwr = s.bwr := rfl
@[simp] theorem State.setTables_key (s : State) (m : Memory) (v : Bool) : (s.setTables m v).key = s.key := rfl
@[simp] theorem State.setTables_kptr (s : State) (m : Memory) (v : Bool) : (s.setTables m v).kptr = s.kptr := rfl
@[simp] theorem State.setTables_kvalid (s : State) (m : Memory) (v : Bool) : (s.setTables m v).kvalid = s.kvalid := rfl
@[simp] theorem State.setTables_tables (s : State) (m : Memory) (v : Bool) : (s.setTables m v).tables = m := rfl
@[simp] theorem State.setTables_tvalid (s : State) (m : Memory) (v : Bool) : (s.setTables m v).tvalid = v := rfl
@[simp] theorem State.setTables_arg (s : State) (m : Memory) (v : Bool) : (s.setTables m v).arg = s.arg := rfl
@[simp] theorem State.setTables_lcmd (s : State) (m : Memory) (v : Bool) : (s.setTables m v).lcmd = s.lcmd := rfl
@[simp] theorem State.setTables_busy (s : State) (m : Memory) (v : Bool) : (s.setTables m v).busy = s.busy := rfl
@[simp] theorem State.setTables_err (s : State) (m : Memory) (v : Bool) : (s.setTables m v).err = s.err := rfl
@[simp] theorem State.setTables_host (s : State) (m : Memory) (v : Bool) : (s.setTables m v).host = s.host := rfl
@[simp] theorem State.setTables_sched (s : State) (m : Memory) (v : Bool) : (s.setTables m v).sched = s.sched := rfl
@[simp] theorem State.setTables_rng (s : State) (m : Memory) (v : Bool) : (s.setTables m v).rng = s.rng := rfl
@[simp] theorem State.setTables_freeCtr (s : State) (m : Memory) (v : Bool) : (s.setTables m v).freeCtr = s.freeCtr := rfl

/-! ### setErr -/

@[simp] theorem State.setErr_block (s : State) (e : BitVec 3) : (s.setErr e).block = s.block := rfl
@[simp] theorem State.setErr_bwr (s : State) (e : BitVec 3) : (s.setErr e).bwr = s.bwr := rfl
@[simp] theorem State.setErr_key (s : State) (e : BitVec 3) : (s.setErr e).key = s.key := rfl
@[simp] theorem State.setErr_kptr (s : State) (e : BitVec 3) : (s.setErr e).kptr = s.kptr := rfl
@[simp] theorem State.setErr_kvalid (s : State) (e : BitVec 3) : (s.setErr e).kvalid = s.kvalid := rfl
@[simp] theorem State.setErr_tables (s : State) (e : BitVec 3) : (s.setErr e).tables = s.tables := rfl
@[simp] theorem State.setErr_tvalid (s : State) (e : BitVec 3) : (s.setErr e).tvalid = s.tvalid := rfl
@[simp] theorem State.setErr_arg (s : State) (e : BitVec 3) : (s.setErr e).arg = s.arg := rfl
@[simp] theorem State.setErr_lcmd (s : State) (e : BitVec 3) : (s.setErr e).lcmd = s.lcmd := rfl
@[simp] theorem State.setErr_busy (s : State) (e : BitVec 3) : (s.setErr e).busy = s.busy := rfl
@[simp] theorem State.setErr_err (s : State) (e : BitVec 3) : (s.setErr e).err = e := rfl
@[simp] theorem State.setErr_host (s : State) (e : BitVec 3) : (s.setErr e).host = s.host := rfl
@[simp] theorem State.setErr_sched (s : State) (e : BitVec 3) : (s.setErr e).sched = s.sched := rfl
@[simp] theorem State.setErr_rng (s : State) (e : BitVec 3) : (s.setErr e).rng = s.rng := rfl
@[simp] theorem State.setErr_freeCtr (s : State) (e : BitVec 3) : (s.setErr e).freeCtr = s.freeCtr := rfl

/-! ### setArg -/

@[simp] theorem State.setArg_block (s : State) (v : Byte) : (s.setArg v).block = s.block := rfl
@[simp] theorem State.setArg_bwr (s : State) (v : Byte) : (s.setArg v).bwr = s.bwr := rfl
@[simp] theorem State.setArg_key (s : State) (v : Byte) : (s.setArg v).key = s.key := rfl
@[simp] theorem State.setArg_kptr (s : State) (v : Byte) : (s.setArg v).kptr = s.kptr := rfl
@[simp] theorem State.setArg_kvalid (s : State) (v : Byte) : (s.setArg v).kvalid = s.kvalid := rfl
@[simp] theorem State.setArg_tables (s : State) (v : Byte) : (s.setArg v).tables = s.tables := rfl
@[simp] theorem State.setArg_tvalid (s : State) (v : Byte) : (s.setArg v).tvalid = s.tvalid := rfl
@[simp] theorem State.setArg_arg (s : State) (v : Byte) : (s.setArg v).arg = v := rfl
@[simp] theorem State.setArg_lcmd (s : State) (v : Byte) : (s.setArg v).lcmd = s.lcmd := rfl
@[simp] theorem State.setArg_busy (s : State) (v : Byte) : (s.setArg v).busy = s.busy := rfl
@[simp] theorem State.setArg_err (s : State) (v : Byte) : (s.setArg v).err = s.err := rfl
@[simp] theorem State.setArg_host (s : State) (v : Byte) : (s.setArg v).host = s.host := rfl
@[simp] theorem State.setArg_sched (s : State) (v : Byte) : (s.setArg v).sched = s.sched := rfl
@[simp] theorem State.setArg_rng (s : State) (v : Byte) : (s.setArg v).rng = s.rng := rfl
@[simp] theorem State.setArg_freeCtr (s : State) (v : Byte) : (s.setArg v).freeCtr = s.freeCtr := rfl

/-! ### latch -/

@[simp] theorem State.latch_block (s : State) (v : Byte) : (s.latch v).block = s.block := rfl
@[simp] theorem State.latch_bwr (s : State) (v : Byte) : (s.latch v).bwr = s.bwr := rfl
@[simp] theorem State.latch_key (s : State) (v : Byte) : (s.latch v).key = s.key := rfl
@[simp] theorem State.latch_kptr (s : State) (v : Byte) : (s.latch v).kptr = s.kptr := rfl
@[simp] theorem State.latch_kvalid (s : State) (v : Byte) : (s.latch v).kvalid = s.kvalid := rfl
@[simp] theorem State.latch_tables (s : State) (v : Byte) : (s.latch v).tables = s.tables := rfl
@[simp] theorem State.latch_tvalid (s : State) (v : Byte) : (s.latch v).tvalid = s.tvalid := rfl
@[simp] theorem State.latch_arg (s : State) (v : Byte) : (s.latch v).arg = s.arg := rfl
@[simp] theorem State.latch_lcmd (s : State) (v : Byte) : (s.latch v).lcmd = v := rfl
@[simp] theorem State.latch_busy (s : State) (v : Byte) : (s.latch v).busy = true := rfl
@[simp] theorem State.latch_err (s : State) (v : Byte) : (s.latch v).err = s.err := rfl
@[simp] theorem State.latch_host (s : State) (v : Byte) : (s.latch v).host = s.host := rfl
@[simp] theorem State.latch_sched (s : State) (v : Byte) : (s.latch v).sched = s.sched := rfl
@[simp] theorem State.latch_rng (s : State) (v : Byte) : (s.latch v).rng = s.rng := rfl
@[simp] theorem State.latch_freeCtr (s : State) (v : Byte) : (s.latch v).freeCtr = s.freeCtr := rfl

/-! ### loadByte -/

@[simp] theorem State.loadByte_block (s : State) (p : Fin 8) (v : Byte) : (s.loadByte p v).block = setByte s.block p v := rfl
@[simp] theorem State.loadByte_bwr (s : State) (p : Fin 8) (v : Byte) : (s.loadByte p v).bwr = s.bwr ||| BitVec.twoPow 8 p.val := rfl
@[simp] theorem State.loadByte_key (s : State) (p : Fin 8) (v : Byte) : (s.loadByte p v).key = s.key := rfl
@[simp] theorem State.loadByte_kptr (s : State) (p : Fin 8) (v : Byte) : (s.loadByte p v).kptr = s.kptr := rfl
@[simp] theorem State.loadByte_kvalid (s : State) (p : Fin 8) (v : Byte) : (s.loadByte p v).kvalid = s.kvalid := rfl
@[simp] theorem State.loadByte_tables (s : State) (p : Fin 8) (v : Byte) : (s.loadByte p v).tables = s.tables := rfl
@[simp] theorem State.loadByte_tvalid (s : State) (p : Fin 8) (v : Byte) : (s.loadByte p v).tvalid = s.tvalid := rfl
@[simp] theorem State.loadByte_arg (s : State) (p : Fin 8) (v : Byte) : (s.loadByte p v).arg = s.arg := rfl
@[simp] theorem State.loadByte_lcmd (s : State) (p : Fin 8) (v : Byte) : (s.loadByte p v).lcmd = s.lcmd := rfl
@[simp] theorem State.loadByte_busy (s : State) (p : Fin 8) (v : Byte) : (s.loadByte p v).busy = s.busy := rfl
@[simp] theorem State.loadByte_err (s : State) (p : Fin 8) (v : Byte) : (s.loadByte p v).err = s.err := rfl
@[simp] theorem State.loadByte_host (s : State) (p : Fin 8) (v : Byte) : (s.loadByte p v).host = s.host := rfl
@[simp] theorem State.loadByte_sched (s : State) (p : Fin 8) (v : Byte) : (s.loadByte p v).sched = s.sched := rfl
@[simp] theorem State.loadByte_rng (s : State) (p : Fin 8) (v : Byte) : (s.loadByte p v).rng = s.rng := rfl
@[simp] theorem State.loadByte_freeCtr (s : State) (p : Fin 8) (v : Byte) : (s.loadByte p v).freeCtr = s.freeCtr := rfl

/-! ### clearBusy -/

@[simp] theorem State.clearBusy_block (s : State) : (s.clearBusy).block = s.block := rfl
@[simp] theorem State.clearBusy_bwr (s : State) : (s.clearBusy).bwr = s.bwr := rfl
@[simp] theorem State.clearBusy_key (s : State) : (s.clearBusy).key = s.key := rfl
@[simp] theorem State.clearBusy_kptr (s : State) : (s.clearBusy).kptr = s.kptr := rfl
@[simp] theorem State.clearBusy_kvalid (s : State) : (s.clearBusy).kvalid = s.kvalid := rfl
@[simp] theorem State.clearBusy_tables (s : State) : (s.clearBusy).tables = s.tables := rfl
@[simp] theorem State.clearBusy_tvalid (s : State) : (s.clearBusy).tvalid = s.tvalid := rfl
@[simp] theorem State.clearBusy_arg (s : State) : (s.clearBusy).arg = s.arg := rfl
@[simp] theorem State.clearBusy_lcmd (s : State) : (s.clearBusy).lcmd = s.lcmd := rfl
@[simp] theorem State.clearBusy_busy (s : State) : (s.clearBusy).busy = false := rfl
@[simp] theorem State.clearBusy_err (s : State) : (s.clearBusy).err = s.err := rfl
@[simp] theorem State.clearBusy_host (s : State) : (s.clearBusy).host = s.host := rfl
@[simp] theorem State.clearBusy_sched (s : State) : (s.clearBusy).sched = s.sched := rfl
@[simp] theorem State.clearBusy_rng (s : State) : (s.clearBusy).rng = s.rng := rfl
@[simp] theorem State.clearBusy_freeCtr (s : State) : (s.clearBusy).freeCtr = s.freeCtr := rfl

/-! ### setRng -/

@[simp] theorem State.setRng_block (s : State) (r : RandomSource) : (s.setRng r).block = s.block := rfl
@[simp] theorem State.setRng_bwr (s : State) (r : RandomSource) : (s.setRng r).bwr = s.bwr := rfl
@[simp] theorem State.setRng_key (s : State) (r : RandomSource) : (s.setRng r).key = s.key := rfl
@[simp] theorem State.setRng_kptr (s : State) (r : RandomSource) : (s.setRng r).kptr = s.kptr := rfl
@[simp] theorem State.setRng_kvalid (s : State) (r : RandomSource) : (s.setRng r).kvalid = s.kvalid := rfl
@[simp] theorem State.setRng_tables (s : State) (r : RandomSource) : (s.setRng r).tables = s.tables := rfl
@[simp] theorem State.setRng_tvalid (s : State) (r : RandomSource) : (s.setRng r).tvalid = s.tvalid := rfl
@[simp] theorem State.setRng_arg (s : State) (r : RandomSource) : (s.setRng r).arg = s.arg := rfl
@[simp] theorem State.setRng_lcmd (s : State) (r : RandomSource) : (s.setRng r).lcmd = s.lcmd := rfl
@[simp] theorem State.setRng_busy (s : State) (r : RandomSource) : (s.setRng r).busy = s.busy := rfl
@[simp] theorem State.setRng_err (s : State) (r : RandomSource) : (s.setRng r).err = s.err := rfl
@[simp] theorem State.setRng_host (s : State) (r : RandomSource) : (s.setRng r).host = s.host := rfl
@[simp] theorem State.setRng_sched (s : State) (r : RandomSource) : (s.setRng r).sched = s.sched := rfl
@[simp] theorem State.setRng_rng (s : State) (r : RandomSource) : (s.setRng r).rng = r := rfl
@[simp] theorem State.setRng_freeCtr (s : State) (r : RandomSource) : (s.setRng r).freeCtr = s.freeCtr := rfl

/-! ### setFreeCtr -/

@[simp] theorem State.setFreeCtr_block (s : State) (n : Nat) : (s.setFreeCtr n).block = s.block := rfl
@[simp] theorem State.setFreeCtr_bwr (s : State) (n : Nat) : (s.setFreeCtr n).bwr = s.bwr := rfl
@[simp] theorem State.setFreeCtr_key (s : State) (n : Nat) : (s.setFreeCtr n).key = s.key := rfl
@[simp] theorem State.setFreeCtr_kptr (s : State) (n : Nat) : (s.setFreeCtr n).kptr = s.kptr := rfl
@[simp] theorem State.setFreeCtr_kvalid (s : State) (n : Nat) : (s.setFreeCtr n).kvalid = s.kvalid := rfl
@[simp] theorem State.setFreeCtr_tables (s : State) (n : Nat) : (s.setFreeCtr n).tables = s.tables := rfl
@[simp] theorem State.setFreeCtr_tvalid (s : State) (n : Nat) : (s.setFreeCtr n).tvalid = s.tvalid := rfl
@[simp] theorem State.setFreeCtr_arg (s : State) (n : Nat) : (s.setFreeCtr n).arg = s.arg := rfl
@[simp] theorem State.setFreeCtr_lcmd (s : State) (n : Nat) : (s.setFreeCtr n).lcmd = s.lcmd := rfl
@[simp] theorem State.setFreeCtr_busy (s : State) (n : Nat) : (s.setFreeCtr n).busy = s.busy := rfl
@[simp] theorem State.setFreeCtr_err (s : State) (n : Nat) : (s.setFreeCtr n).err = s.err := rfl
@[simp] theorem State.setFreeCtr_host (s : State) (n : Nat) : (s.setFreeCtr n).host = s.host := rfl
@[simp] theorem State.setFreeCtr_sched (s : State) (n : Nat) : (s.setFreeCtr n).sched = s.sched := rfl
@[simp] theorem State.setFreeCtr_rng (s : State) (n : Nat) : (s.setFreeCtr n).rng = s.rng := rfl
@[simp] theorem State.setFreeCtr_freeCtr (s : State) (n : Nat) : (s.setFreeCtr n).freeCtr = n := rfl

/-! ### setHost -/

@[simp] theorem State.setHost_block (s : State) (h : HostAgent) : (s.setHost h).block = s.block := rfl
@[simp] theorem State.setHost_bwr (s : State) (h : HostAgent) : (s.setHost h).bwr = s.bwr := rfl
@[simp] theorem State.setHost_key (s : State) (h : HostAgent) : (s.setHost h).key = s.key := rfl
@[simp] theorem State.setHost_kptr (s : State) (h : HostAgent) : (s.setHost h).kptr = s.kptr := rfl
@[simp] theorem State.setHost_kvalid (s : State) (h : HostAgent) : (s.setHost h).kvalid = s.kvalid := rfl
@[simp] theorem State.setHost_tables (s : State) (h : HostAgent) : (s.setHost h).tables = s.tables := rfl
@[simp] theorem State.setHost_tvalid (s : State) (h : HostAgent) : (s.setHost h).tvalid = s.tvalid := rfl
@[simp] theorem State.setHost_arg (s : State) (h : HostAgent) : (s.setHost h).arg = s.arg := rfl
@[simp] theorem State.setHost_lcmd (s : State) (h : HostAgent) : (s.setHost h).lcmd = s.lcmd := rfl
@[simp] theorem State.setHost_busy (s : State) (h : HostAgent) : (s.setHost h).busy = s.busy := rfl
@[simp] theorem State.setHost_err (s : State) (h : HostAgent) : (s.setHost h).err = s.err := rfl
@[simp] theorem State.setHost_host (s : State) (h : HostAgent) : (s.setHost h).host = h := rfl
@[simp] theorem State.setHost_sched (s : State) (h : HostAgent) : (s.setHost h).sched = s.sched := rfl
@[simp] theorem State.setHost_rng (s : State) (h : HostAgent) : (s.setHost h).rng = s.rng := rfl
@[simp] theorem State.setHost_freeCtr (s : State) (h : HostAgent) : (s.setHost h).freeCtr = s.freeCtr := rfl

/-! ### popTurn -/

@[simp] theorem State.popTurn_block (s : State) : (s.popTurn).block = s.block := rfl
@[simp] theorem State.popTurn_bwr (s : State) : (s.popTurn).bwr = s.bwr := rfl
@[simp] theorem State.popTurn_key (s : State) : (s.popTurn).key = s.key := rfl
@[simp] theorem State.popTurn_kptr (s : State) : (s.popTurn).kptr = s.kptr := rfl
@[simp] theorem State.popTurn_kvalid (s : State) : (s.popTurn).kvalid = s.kvalid := rfl
@[simp] theorem State.popTurn_tables (s : State) : (s.popTurn).tables = s.tables := rfl
@[simp] theorem State.popTurn_tvalid (s : State) : (s.popTurn).tvalid = s.tvalid := rfl
@[simp] theorem State.popTurn_arg (s : State) : (s.popTurn).arg = s.arg := rfl
@[simp] theorem State.popTurn_lcmd (s : State) : (s.popTurn).lcmd = s.lcmd := rfl
@[simp] theorem State.popTurn_busy (s : State) : (s.popTurn).busy = s.busy := rfl
@[simp] theorem State.popTurn_err (s : State) : (s.popTurn).err = s.err := rfl
@[simp] theorem State.popTurn_host (s : State) : (s.popTurn).host = s.host := rfl
@[simp] theorem State.popTurn_sched (s : State) : (s.popTurn).sched = s.sched.tail := rfl
@[simp] theorem State.popTurn_rng (s : State) : (s.popTurn).rng = s.rng := rfl
@[simp] theorem State.popTurn_freeCtr (s : State) : (s.popTurn).freeCtr = s.freeCtr := rfl

end Sys2Proof.Machine
end

