-- ==== Sys2Proof/Laws/Ops.lean ====
section
/-! SUPPORT. What each shared operation can do, said once. -/

namespace Sys2Proof.Machine

/-- Recording an error changes ERR alone, and only from 0 (R152). -/
theorem raiseError_eq (c : ErrCode) (s : State) :
    raiseError c s = { s with err := if s.err = 0 then c.code else s.err } := by
  unfold raiseError State.setErr
  split <;> simp_all

/-- Every recorded code is a defined one (R150). -/
theorem ErrCode.code_bounds (c : ErrCode) : c.code ≠ 0 ∧ c.code ≠ 7 := by
  cases c <;> decide

/-- A command behind its checks does one of two things (R153, R154). -/
theorem runChecked_cases (n : Needs) (act : State → State) (s : State) :
    (∃ c, firstError n s = some c ∧ runChecked n act s = raiseError c s) ∨
      (firstError n s = none ∧ runChecked n act s = act s) := by
  unfold runChecked
  cases h : firstError n s with
  | none => exact .inr ⟨rfl, rfl⟩
  | some c => exact .inl ⟨c, rfl, rfl⟩

/-- The checks pass exactly when every needed flag is 1 (R154). -/
theorem firstError_eq_none_iff (n : Needs) (s : State) :
    firstError n s = none ↔
      (n.key = true → s.kvalid = true) ∧ (n.tables = true → s.tvalid = true) ∧
        (n.block = true → s.bvalid = true) := by
  unfold firstError
  cases n.key <;> cases n.tables <;> cases n.block <;> cases s.kvalid <;> cases s.tvalid <;> cases s.bvalid <;>
    simp

theorem runChecked_of_pass {n : Needs} {act : State → State} {s : State} (h : firstError n s = none) :
    runChecked n act s = act s := by
  simp [runChecked, h]

/-- Ending the engine step clears BUSY and nothing else (R176). -/
@[simp] theorem finishCommand_next (s : State) : finishCommand (.next s) = .next s.clearBusy := rfl

/-- A free value is the next one of its sequence, and the counter moves on. -/
@[simp] theorem drawAny_fst (s : State) : (drawAny s).1 = Config.freeByte s.freeCtr := rfl
@[simp] theorem drawAny_snd (s : State) : (drawAny s).2 = s.setFreeCtr (s.freeCtr + 1) := rfl

/-- One answer uses up one draw; a listed answer is given as it is (R83). -/
theorem answer_cases (r : RandomSource) (bound : Nat) :
    (∃ j rest, r.answers = j :: rest ∧ answer r bound = (j, ⟨rest, r.asked + 1⟩)) ∨
      (r.answers = [] ∧ answer r bound = (Config.randomByte r.asked bound, ⟨[], r.asked + 1⟩)) := by
  unfold answer
  cases h : r.answers with
  | nil => exact .inr ⟨rfl, rfl⟩
  | cons j rest => exact .inl ⟨j, rest, rfl, rfl⟩

/-- Spoiling the tables keeps table memory canonical. -/
theorem spoilTables_wf {s : State} (h : Memory.wf s.tables = true) : Memory.wf (spoilTables s).tables = true := by
  have hlen : ((List.range 0xE00).map fun k => Config.freeByte (s.freeCtr + k)).length = 0xE00 := by
    rw [List.length_map, List.length_range]
  exact Memory.wf_store h (le_refl _) (by rw [hlen]; decide)

/-- Spoiling the tables touches the tables, TVALID and the free-value counter alone (R86). -/
theorem spoilTables_frame (s : State) :
    spoilTables s =
      { s with tables := (spoilTables s).tables, tvalid := false, freeCtr := s.freeCtr + 0xE00 } := rfl

/-- Table pair 0 is the identity in every state (R17). -/
@[simp] theorem State.entry_zero (s : State) (d : Dir) (x : Byte) : s.entry d 0 x = x := rfl

theorem State.entry_of_ne {p : Fin 8} (h : p ≠ 0) (s : State) (d : Dir) (x : Byte) :
    s.entry d p x = Memory.read s.tables (tableAddr p d x) := by
  simp [State.entry, h]

/-- The entries depend on table memory alone. -/
theorem State.entry_congr {s t : State} (h : s.tables = t.tables) : s.entry = t.entry := by
  funext d p x
  simp [State.entry, h]

end Sys2Proof.Machine
end

