-- ==== Sys2Proof/Laws/Exec.lean ====
section
/-! SUPPORT. What a command can do to the state, said once over all commands. -/

namespace Sys2Proof.Machine

/-- A block command does one of two things (42_encrypt.md, 43_decrypt.md). -/
theorem blockCommand_cases (n : Needs) (f : State → Bytes8) (s : State) :
    (∃ c, firstError n s = some c ∧ runChecked n (fun s => s.setBlock (f s)) s = raiseError c s) ∨
      (firstError n s = none ∧ runChecked n (fun s => s.setBlock (f s)) s = s.setBlock (f s)) :=
  runChecked_cases n _ s

/-- Every command ends in one of these ways, and always in a next state. -/
theorem exec_cases (i : Instr) (s : State) :
    (i = .nop ∧ exec i s = .next s) ∨ (i = .errClear ∧ exec i s = .next (clearError s)) ∨
      (i = .keyClear ∧ exec i s = .next (clearKey s)) ∨
      (i = .keyAbsorb ∧ s.kvalid = true ∧ exec i s = .next (absorbByte s)) ∨
      (i = .tblGen ∧ exec i s = .next (generate s)) ∨
      (i ∉ [Instr.nop, .errClear, .keyClear, .tblGen] ∧ ∃ c, exec i s = .next (raiseError c s)) ∨
      (i ∉ [Instr.nop, .errClear, .keyClear, .keyAbsorb, .tblGen] ∧ s.bvalid = true ∧
        ∃ b, exec i s = .next (s.setBlock b)) := by
  have block : ∀ (n : Needs) (f : State → Bytes8), n.block = true →
      exec i s = .next (runChecked n (fun s => s.setBlock (f s)) s) →
      (∃ c, exec i s = .next (raiseError c s)) ∨ (s.bvalid = true ∧ ∃ b, exec i s = .next (s.setBlock b)) := by
    intro n f hn he
    rcases blockCommand_cases n f s with ⟨c, _, h⟩ | ⟨hf, h⟩
    · exact .inl ⟨c, he.trans (congrArg _ h)⟩
    · exact .inr ⟨((firstError_eq_none_iff n s).mp hf).2.2 hn, f s, he.trans (congrArg _ h)⟩
  cases i
  case nop => exact .inl ⟨rfl, rfl⟩
  case errClear => exact .inr (.inl ⟨rfl, rfl⟩)
  case keyClear => exact .inr (.inr (.inl ⟨rfl, rfl⟩))
  case tblGen => exact .inr (.inr (.inr (.inr (.inl ⟨rfl, rfl⟩))))
  case keyAbsorb =>
    rcases runChecked_cases { key := true, tables := false, block := false } absorbByte s with ⟨c, _, h⟩ | ⟨hf, h⟩
    · exact .inr (.inr (.inr (.inr (.inr (.inl ⟨by simp, c, congrArg _ h⟩)))))
    · exact .inr (.inr (.inr (.inl ⟨rfl, ((firstError_eq_none_iff _ s).mp hf).1 rfl, congrArg _ h⟩)))
  all_goals
    rcases block _ _ rfl rfl with h | h
    · exact .inr (.inr (.inr (.inr (.inr (.inl ⟨by simp, h⟩)))))
    · exact .inr (.inr (.inr (.inr (.inr (.inr ⟨by simp, h⟩)))))

end Sys2Proof.Machine
end

