-- ==== Sys2Proof/Laws/Operands.lean ====
section
/-! SUPPORT. The bytes of a register file, and where the entries of the tables stand. -/

namespace Sys2Proof.Machine

@[simp] theorem byteAt_bytes8 (f : Fin 8 → Byte) (p : Fin 8) : byteAt (bytes8 f) p = f p := by
  match p with
  | 0 | 1 | 2 | 3 | 4 | 5 | 6 | 7 => rfl

/-- Register files that agree byte for byte are equal. -/
theorem bytes8_ext {a b : Bytes8} (h : ∀ p, byteAt a p = byteAt b p) : a = b := by
  apply Vector.ext
  intro i hi
  exact h ⟨i, hi⟩

@[simp] theorem bytes8_byteAt (b : Bytes8) : bytes8 (byteAt b) = b :=
  bytes8_ext fun p => byteAt_bytes8 _ p

theorem byteAt_setByte (b : Bytes8) (p q : Fin 8) (v : Byte) :
    byteAt (setByte b p v) q = if q = p then v else byteAt b q := by
  simp only [byteAt, setByte, Vector.get_eq_getElem, Vector.getElem_set, Fin.ext_iff, eq_comm]

/-- The window entry of every address in the window is at that address (R36). -/
theorem tableAddr_bounds (p : Fin 8) (d : Dir) (x : Byte) :
    tableBase p d ≤ tableAddr p d x ∧ tableAddr p d x < tableBase p d + 256 := by
  have := x.isLt
  simp only [tableAddr]
  omega

/-- The 256-byte areas of two tables do not meet. -/
theorem tableBase_apart {p q : Fin 8} {d e : Dir} (h : (p, d) ≠ (q, e)) :
    tableBase p d + 256 ≤ tableBase q e ∨ tableBase q e + 256 ≤ tableBase p d := by
  have hp := p.isLt
  have hq := q.isLt
  have hne : p.val ≠ q.val ∨ d ≠ e := by
    by_contra hcon
    push Not at hcon
    exact h (Prod.ext (Fin.ext hcon.1) hcon.2)
  simp only [tableBase]
  cases d <;> cases e <;> simp only [Dir.bit] <;> simp at hne <;> omega

/-- The tables that have storage lie in table memory. -/
theorem tableBase_range {p : Fin 8} (hp : p ≠ 0) (d : Dir) :
    0x1200 ≤ tableBase p d ∧ tableBase p d + 256 ≤ 0x2000 := by
  have h0 : p.val ≠ 0 := fun e => hp (Fin.ext e)
  have := p.isLt
  cases d <;> simp only [tableBase, Dir.bit] <;> omega

end Sys2Proof.Machine
end

