-- ==== Sys2Proof/Laws/HostPort.lean ====
section
/-! SUPPORT. What a host access can do. -/

namespace Sys2Proof.Machine

/-- A read gives its definite value and changes nothing, or gives the next free value and moves the counter. -/
theorem hostRead_cases (a : Addr) (s : State) :
    (∃ v, readValue (hostReg a) s = some v ∧ hostRead a s = (v, s)) ∨
      (readValue (hostReg a) s = none ∧
        hostRead a s = (Config.freeByte s.freeCtr, s.setFreeCtr (s.freeCtr + 1))) := by
  unfold hostRead
  cases h : readValue (hostReg a) s with
  | none => exact .inr ⟨rfl, rfl⟩
  | some v => exact .inl ⟨v, rfl, rfl⟩

/-- A write does one of five things (R32, R33). -/
theorem hostWrite_cases (a : Addr) (v : Byte) (s : State) :
    (s.busy = true ∧ hostWrite a v s = raiseError .busy s) ∨ hostWrite a v s = s ∨
      (s.busy = false ∧ hostWrite a v s = s.latch v) ∨ (s.busy = false ∧ hostWrite a v s = s.setArg v) ∨
      (s.busy = false ∧ ∃ p, hostReg a = .block p ∧ hostWrite a v s = s.loadByte p v) := by
  unfold hostWrite writeBusy writeIdle
  cases hb : s.busy <;> cases hr : hostReg a <;> simp

/-- No write touches the key, the tables, their flags, or another agent. -/
theorem hostWrite_frame (a : Addr) (v : Byte) (s : State) :
    (hostWrite a v s).key = s.key ∧ (hostWrite a v s).kptr = s.kptr ∧ (hostWrite a v s).kvalid = s.kvalid ∧
      (hostWrite a v s).tables = s.tables ∧ (hostWrite a v s).tvalid = s.tvalid ∧ (hostWrite a v s).host = s.host ∧
      (hostWrite a v s).sched = s.sched ∧ (hostWrite a v s).rng = s.rng ∧ (hostWrite a v s).freeCtr = s.freeCtr := by
  rcases hostWrite_cases a v s with ⟨_, h⟩ | h | ⟨_, h⟩ | ⟨_, h⟩ | ⟨_, p, _, h⟩ <;> rw [h] <;>
    simp [raiseError_eq]

end Sys2Proof.Machine
end

