-- ==== Sys2Proof/Laws/PerInstr.lean ====
section
/-! SUPPORT. Statements for all commands, made one command at a time. -/

namespace Sys2Proof.Laws.Opcode

/-- Every command is well formed and its opcode lies in 0x00 to 0x0D (R51). -/
def Statement (i : Instr) : Prop :=
  i.wellFormed = true ∧ (encode i).toNat ≤ 0x0D

theorem nop : Statement .nop := ⟨rfl, by decide⟩
theorem keyClear : Statement .keyClear := ⟨rfl, by decide⟩
theorem keyAbsorb : Statement .keyAbsorb := ⟨rfl, by decide⟩
theorem tblGen : Statement .tblGen := ⟨rfl, by decide⟩
theorem encrypt : Statement .encrypt := ⟨rfl, by decide⟩
theorem decrypt : Statement .decrypt := ⟨rfl, by decide⟩
theorem keymix : Statement .keymix := ⟨rfl, by decide⟩
theorem sub : Statement .sub := ⟨rfl, by decide⟩
theorem invsub : Statement .invsub := ⟨rfl, by decide⟩
theorem rotl : Statement .rotl := ⟨rfl, by decide⟩
theorem rotr : Statement .rotr := ⟨rfl, by decide⟩
theorem encRound : Statement .encRound := ⟨rfl, by decide⟩
theorem decRound : Statement .decRound := ⟨rfl, by decide⟩
theorem errClear : Statement .errClear := ⟨rfl, by decide⟩

end Sys2Proof.Laws.Opcode
end

