-- ==== Sys2Proof/Laws/Step.lean ====
section
/-! SUPPORT. What one step can do. -/

namespace Sys2Proof.Machine

/-- A step is the turn of one agent. -/
theorem step_cases (s : State) :
    (nextTurn s = .engine ∧ step s = engineTurn s.popTurn) ∨ (nextTurn s = .host ∧ step s = hostTurn s.popTurn) ∨
      (nextTurn s = .reset ∧ step s = .next (assertReset s.popTurn)) := by
  unfold step
  cases h : nextTurn s <;> simp

/-- The engine's turn does one of three things (R52, R176). -/
theorem engineTurn_cases (s : State) :
    (s.busy = false ∧ engineTurn s = .next s) ∨
      (s.busy = true ∧ ∃ i, decode s.lcmd = .command i ∧ engineTurn s = finishCommand (exec i s)) ∨
      (s.busy = true ∧ ∃ b, decode s.lcmd = .illegal b ∧
        engineTurn s = .next (raiseError .illegal s).clearBusy) := by
  unfold engineTurn
  cases hb : s.busy
  · exact .inl ⟨rfl, rfl⟩
  · cases hd : decode s.lcmd with
    | command i => exact .inr (.inl ⟨rfl, i, rfl, rfl⟩)
    | illegal b => exact .inr (.inr ⟨rfl, b, rfl, rfl⟩)

/-- What a recorded read leaves: the host's record grows by one, the state is else as a read leaves it. -/
theorem recordedRead_snd (a : Addr) (s : State) :
    ∃ n, (recordedRead a s).2 =
      { s with freeCtr := n, host := { s.host with reads := s.host.reads ++ [(a, (recordedRead a s).1)] } } := by
  unfold recordedRead
  rcases hostRead_cases a s with ⟨v, _, h⟩ | ⟨_, h⟩ <;> rw [h]
  · exact ⟨s.freeCtr, rfl⟩
  · exact ⟨s.freeCtr + 1, rfl⟩

/-- The host's turn, where it goes on, is a write or at most one recorded read, and then a move of the host in its
script. -/
theorem hostTurn_cases {s t : State} (h : hostTurn s = .next t) :
    t = s ∨ (∃ a v h', t = (hostWrite a v s).setHost h') ∨ (∃ h', t = s.setHost h') ∨
      ∃ a h', t = ((recordedRead a s).2).setHost h' := by
  unfold hostTurn at h
  split at h
  · exact .inl (Host.Outcome.next.inj h).symm
  · split at h
    · next st _ =>
      cases st with
      | wr a v => exact .inr (.inl ⟨a, v, _, (Host.Outcome.next.inj h).symm⟩)
      | cmd i => exact .inr (.inl ⟨_, _, _, (Host.Outcome.next.inj h).symm⟩)
      | label l => exact .inr (.inr (.inl ⟨_, (Host.Outcome.next.inj h).symm⟩))
      | rd a => exact .inr (.inr (.inr ⟨a, _, (Host.Outcome.next.inj h).symm⟩))
      | check => exact .inr (.inr (.inr ⟨0x0002, _, (Host.Outcome.next.inj h).symm⟩))
      | bnz l a mask =>
        simp only [hostStmt, branchTo] at h
        split at h
        · split at h
          · exact .inr (.inr (.inr ⟨a, _, (Host.Outcome.next.inj h).symm⟩))
          · cases h
        · exact .inr (.inr (.inr ⟨a, _, (Host.Outcome.next.inj h).symm⟩))
    · exact .inl (Host.Outcome.next.inj h).symm

end Sys2Proof.Machine
end

