-- ==== Sys2Proof/Laws/Run.lean ====
section
/-! SUPPORT. What several steps can do, and what changes the end and the observation of a run. -/

namespace Sys2Proof.Machine

theorem runSteps_one (s : State) : runSteps 1 s = step s := by
  rw [runSteps]
  cases step s <;> rfl

/-- The last of n + 1 steps: it is a step of what n steps reach. -/
theorem runSteps_succ_last {n : Nat} {s t : State} :
    runSteps (n + 1) s = .next t ↔ ∃ u, runSteps n s = .next u ∧ step u = .next t := by
  induction n generalizing s with
  | zero => rw [runSteps_one]; simp [runSteps]
  | succ n ih =>
    rw [runSteps, runSteps]
    cases step s with
    | next u => exact ih
    | fault f => simp
    | refused r => simp

/-- The run has ended: no access ahead and BUSY = 0 (R180). -/
theorem runEnded_iff (s : State) : s.runEnded = true ↔ s.hostDone = true ∧ s.busy = false := by
  simp [State.runEnded]

/-- Where the host is done, its turn changes nothing but its place among labels. -/
theorem hostTurn_of_done {s : State} (h : s.hostDone = true) :
    ∃ n, hostTurn s = .next (s.hostGoto n) ∧ (s.hostGoto n).hostDone = true := by
  have keep : s.hostGoto s.host.pos = s := rfl
  unfold hostTurn
  split
  · exact ⟨s.host.pos, by rw [keep], by rw [keep]; exact h⟩
  · next hf =>
    have hall : (s.host.script.drop s.host.pos).all (fun st => !st.isAccess) = true := by
      simpa [State.hostDone, hf] using h
    split
    · next st hst =>
      obtain ⟨hlt, rfl⟩ := List.getElem?_eq_some_iff.mp hst
      rw [List.drop_eq_getElem_cons hlt, List.all_cons, Bool.and_eq_true] at hall
      refine ⟨s.host.pos + 1, ?_, ?_⟩
      · revert hall
        cases s.host.script[s.host.pos] <;> simp [HostStmt.isAccess, hostStmt, State.hostAdvance]
      · simp only [State.hostDone, State.hostGoto, State.setHost, hall.2, Bool.or_true]
    · exact ⟨s.host.pos, by rw [keep], by rw [keep]; exact h⟩

/-- The observation is of the host's record and the engine alone: neither the host's place nor a turn used up shows in
it (R180). -/
@[simp] theorem observation_hostGoto (s : State) (n : Nat) : (s.hostGoto n).observation = s.observation := rfl
@[simp] theorem observation_popTurn (s : State) : s.popTurn.observation = s.observation := rfl

end Sys2Proof.Machine
end

