-- ==== Sys2Proof/Laws/Tables.lean ====
section
/-! SUPPORT. The table factory: a swap of two entries of a permutation is a permutation, the inversion undoes it, and a
stored pair reads as the tables that were stored. -/

namespace Sys2Proof.Machine

/-- A list of all 256 bytes, each once: what a table is while TVALID = 1. -/
structure IsTable (A : List Byte) : Prop where
  /-- 256 entries. -/
  length : A.length = 256
  /-- no value twice. -/
  nodup : A.Nodup

theorem identityTable_isTable : IsTable identityTable := by
  constructor
  · simp [identityTable]
  · refine (List.nodup_range).map_on fun a ha b hb h => ?_
    have := congrArg BitVec.toNat h
    simp only [BitVec.toNat_ofNat] at this
    rw [List.mem_range] at ha hb
    omega

theorem swapEntries_length (A : List Byte) (i j : Nat) : (swapEntries A i j).length = A.length := by
  simp [swapEntries]

/-- What a swap reads as. -/
theorem swapEntries_getElem (A : List Byte) {i j k : Nat} (hi : i < A.length) (hj : j < A.length)
    (hk : k < (swapEntries A i j).length) :
    (swapEntries A i j)[k] =
      if k = j then A[i] else if k = i then A[j] else A[k]'(by rwa [swapEntries_length] at hk) := by
  simp only [swapEntries, List.getElem_set, eq_comm (a := j) (b := k), eq_comm (a := i) (b := k)]
  simp [hi, hj]

theorem swapEntries_isTable {A : List Byte} (h : IsTable A) {i j : Nat} (hi : i < 256) (hj : j < 256) :
    IsTable (swapEntries A i j) := by
  obtain ⟨hl, hn⟩ := h
  refine ⟨by rw [swapEntries_length, hl], ?_⟩
  rw [List.nodup_iff_injective_get] at hn ⊢
  have inj : ∀ {a b : Nat} (ha : a < A.length) (hb : b < A.length), A[a] = A[b] → a = b := fun ha hb e =>
    Fin.mk.inj (hn (a₁ := ⟨_, ha⟩) (a₂ := ⟨_, hb⟩) e)
  have hi' : i < A.length := by omega
  have hj' : j < A.length := by omega
  rintro ⟨a, ha⟩ ⟨b, hb⟩ e
  have ha' : a < A.length := by rwa [swapEntries_length] at ha
  have hb' : b < A.length := by rwa [swapEntries_length] at hb
  simp only [List.get_eq_getElem, swapEntries_getElem A hi' hj'] at e
  apply Fin.ext
  show a = b
  split_ifs at e <;> first
    | omega
    | (have := inj _ _ e; omega)

/-- A shuffle that ends gives a table (R87): every swap has both its entries in range. -/
theorem shuffleFrom_isTable {i : Nat} (hi : i < 256) {A B : List Byte} (hA : IsTable A) {r r' : RandomSource}
    (h : shuffleFrom i A r = (some B, r')) : IsTable B := by
  induction i generalizing A r with
  | zero =>
    simp only [shuffleFrom, Prod.mk.injEq, Option.some.injEq] at h
    exact h.1 ▸ hA
  | succ i ih =>
    simp only [shuffleFrom] at h
    split at h
    · simp at h
    · exact ih (by omega) (swapEntries_isTable hA (by omega) (by omega)) h

theorem shuffle_isTable {A : List Byte} {r r' : RandomSource} (h : shuffle r = (some A, r')) : IsTable A :=
  shuffleFrom_isTable (by decide) identityTable_isTable h

theorem IsTable.getElem_inj {A : List Byte} (h : IsTable A) {a b : Nat} (ha : a < 256) (hb : b < 256)
    (e : A[a]'(h.length ▸ ha) = A[b]'(h.length ▸ hb)) : a = b := by
  have hn := List.nodup_iff_injective_get.mp h.nodup
  exact Fin.mk.inj (hn (a₁ := ⟨a, h.length ▸ ha⟩) (a₂ := ⟨b, h.1 ▸ hb⟩) e)

/-! ## The inversion -/

theorem invertLoop_length (A : List Byte) (l : List Nat) (D : List Byte) :
    (l.foldl (fun D i => D.set (A.getD i 0).toNat (BitVec.ofNat 8 i)) D).length = D.length := by
  induction l generalizing D with
  | nil => rfl
  | cons i l ih => rw [List.foldl_cons, ih, List.length_set]

theorem invertTable_length (A : List Byte) : (invertTable A).length = 256 := by
  rw [invertTable, invertLoop_length, List.length_replicate]

/-- The inversion writes entry A[i] once, with i (R84). -/
theorem invertTable_getElem {A : List Byte} (h : IsTable A) (i : Nat) (hi : i < 256) :
    (invertTable A)[(A[i]'(h.length ▸ hi)).toNat]'(by rw [invertTable_length]; exact BitVec.isLt _) =
      BitVec.ofNat 8 i := by
  have aux : ∀ n ≤ 256, ∀ k < n,
      ((List.range n).foldl (fun D i => D.set (A.getD i 0).toNat (BitVec.ofNat 8 i))
        (List.replicate 256 (0 : Byte)))[(A.getD k 0).toNat]? = some (BitVec.ofNat 8 k) := by
    intro n hn
    induction n with
    | zero => intro k hk; omega
    | succ n ih =>
      intro k hk
      simp only [List.range_succ, List.foldl_append, List.foldl_cons, List.foldl_nil, List.getElem?_set,
        invertLoop_length, List.length_replicate]
      split
      · next e =>
        have e' := BitVec.eq_of_toNat_eq e
        rw [List.getD_eq_getElem _ _ (by rw [h.length]; omega), List.getD_eq_getElem _ _ (by rw [h.length]; omega)]
          at e'
        rw [if_pos (BitVec.isLt _), h.getElem_inj (by omega) (by omega) e']
      · next e =>
        have hkn : k ≠ n := fun e' => e (by rw [e'])
        exact ih (by omega) k (by omega)
  have := aux 256 (le_refl _) i hi
  rw [List.getD_eq_getElem _ _ (by rw [h.length]; omega)] at this
  exact (List.getElem_eq_iff _).mpr this

/-! ## Stored pairs -/

theorem storePair_wf {m : Memory} (hm : Memory.wf m = true) {t : Fin 8} (ht : t ≠ 0) {A : List Byte}
    (hA : A.length = 256) : Memory.wf (storePair m t A) = true := by
  have he := tableBase_range ht .enc
  have hd := tableBase_range ht .dec
  refine Memory.wf_store (Memory.wf_store hm he.1 ?_) hd.1 ?_
  · rw [hA]; exact he.2
  · rw [invertTable_length]; exact hd.2

/-- Reading the encryption table just stored. -/
theorem storePair_read_enc (m : Memory) (t : Fin 8) {A : List Byte} (hA : A.length = 256) (x : Byte) :
    Memory.read (storePair m t A) (tableAddr t .enc x) = A[x.toNat]'(hA ▸ x.isLt) := by
  have hx := x.isLt
  have hb := tableAddr_bounds t .enc x
  have hap := tableBase_apart (p := t) (q := t) (d := .enc) (e := .dec) (by simp)
  rw [storePair, Memory.read_store_outside _ _ _ _ (by rw [invertTable_length]; omega), tableAddr,
    Memory.read_store_inside]

/-- Reading the decryption table just stored. -/
theorem storePair_read_dec (m : Memory) (t : Fin 8) {A : List Byte} (x : Byte) :
    Memory.read (storePair m t A) (tableAddr t .dec x) =
      (invertTable A)[x.toNat]'(by rw [invertTable_length]; exact x.isLt) := by
  rw [storePair, tableAddr, Memory.read_store_inside]

/-- Storing a pair leaves the other positions' tables alone. -/
theorem storePair_read_other (m : Memory) {t p : Fin 8} (h : p ≠ t) {A : List Byte} (hA : A.length = 256) (d : Dir)
    (x : Byte) : Memory.read (storePair m t A) (tableAddr p d x) = Memory.read m (tableAddr p d x) := by
  have hb := tableAddr_bounds p d x
  have he := tableBase_apart (p := p) (q := t) (d := d) (e := .enc) (fun e => h (Prod.mk.inj e).1)
  have hd := tableBase_apart (p := p) (q := t) (d := d) (e := .dec) (fun e => h (Prod.mk.inj e).1)
  rw [storePair, Memory.read_store_outside _ _ _ _ (by rw [invertTable_length]; omega),
    Memory.read_store_outside _ _ _ _ (by rw [hA]; omega)]

/-- What the factory leaves in every table's place (R80, R85): where all draws are in range, each listed position holds
a table and its inversion, and every other byte is as before. -/
theorem genTables_spec {ts : List (Fin 8)} (hts : ts.Nodup) (h0 : (0 : Fin 8) ∉ ts) {m m' : Memory}
    {r r' : RandomSource} (h : genTables ts m r = (some m', r')) :
    (Memory.wf m = true → Memory.wf m' = true) ∧
      (∀ p ∉ ts, ∀ d x, Memory.read m' (tableAddr p d x) = Memory.read m (tableAddr p d x)) ∧
      ∀ t ∈ ts, ∃ A, ∃ hA : IsTable A,
        (∀ x : Byte, Memory.read m' (tableAddr t .enc x) = A[x.toNat]'(hA.length ▸ x.isLt)) ∧
        ∀ x : Byte, Memory.read m' (tableAddr t .dec x) =
          (invertTable A)[x.toNat]'(by rw [invertTable_length]; exact x.isLt) := by
  induction ts generalizing m r with
  | nil =>
    simp only [genTables, Prod.mk.injEq, Option.some.injEq] at h
    refine ⟨fun hm => h.1 ▸ hm, fun p _ d x => by rw [h.1], fun t ht => by simp at ht⟩
  | cons t ts ih =>
    simp only [genTables] at h
    split at h
    · simp at h
    · next A r₁ hs =>
      have hA := shuffle_isTable hs
      have ht0 : t ≠ 0 := fun e => h0 (by simp [e])
      obtain ⟨hwf, hout, hin⟩ := ih (List.nodup_cons.mp hts).2 (fun e => h0 (List.mem_cons_of_mem _ e)) h
      refine ⟨fun hm => hwf (storePair_wf hm ht0 hA.length), fun p hp d x => ?_, fun p hp => ?_⟩
      · rw [hout p (fun e => hp (List.mem_cons_of_mem _ e)),
          storePair_read_other m (fun e => hp (by simp [e])) hA.length]
      · rcases List.mem_cons.mp hp with rfl | hp
        · have hnot := (List.nodup_cons.mp hts).1
          exact ⟨A, hA, fun x => by rw [hout p hnot, storePair_read_enc m p hA.length],
            fun x => by rw [hout p hnot, storePair_read_dec]⟩
        · exact hin p hp

/-- TBL_GEN ends in one of two ways (R80, R86). -/
theorem generate_cases (s : State) :
    (∃ m r, genTables generatedPositions s.tables s.rng = (some m, r) ∧
        generate s = { s with tables := m, tvalid := true, rng := r }) ∨
      (∃ r, genTables generatedPositions s.tables s.rng = (none, r) ∧
        generate s = raiseError .rng (spoilTables (s.setRng r))) := by
  unfold generate
  rcases h : genTables generatedPositions s.tables s.rng with ⟨_ | m, r⟩
  · exact .inr ⟨r, rfl, rfl⟩
  · exact .inl ⟨m, r, rfl, rfl⟩

end Sys2Proof.Machine
end

