-- ==== Sys2Proof/Tests/Slice0.lean ====
section
/-! SUPPORT. The model's own tests, with the expected values of 95_test_vectors.md (its row is named in each comment), and
for every statement with hypotheses a witness: a state and operands that meet them. -/

namespace Sys2Proof.Machine

/-! ## Helpers -/

/-- The next state, if there is one. -/
def after (o : Host.Outcome State Fault Refusal) : Option State :=
  match o with
  | .next s => some s
  | .fault _ | .refused _ => none

/-- KD2's key, of the passphrase "testkey". -/
def testKey : Bytes8 := #v[0x74, 0x65, 0x73, 0x74, 0x6B, 0x65, 0x79, 0x00]

/-- The block 01 02 ... 08 of the vectors. -/
def testBlock : Bytes8 := #v[1, 2, 3, 4, 5, 6, 7, 8]

/-- Key, block and a table memory m, all valid. -/
def keyed (m : Memory) (b : Bytes8) : State :=
  { State.reset with block := b, bwr := 0xFF, key := testKey, kptr := 7, kvalid := true, tables := m, tvalid := true }

/-- Table memory with E[p][x p] = y p for p = 1..7 and nothing else listed. -/
def sparse (d : Dir) (x y : Bytes8) : Memory :=
  [1, 2, 3, 4, 5, 6, 7].map fun p => (tableAddr p d (byteAt x p), byteAt y p)

/-- The block of the next state. -/
def blockAfter (i : Instr) (s : State) : Option Bytes8 :=
  (after (exec i s)).map (·.block)

/-- The latch holding v, BUSY = 1. -/
def pending (v : Byte) : State :=
  { State.reset with lcmd := v, busy := true }

/-- The host standing at the only statement of its script. -/
def atStmt (st : HostStmt) : State :=
  { State.reset with host := { script := [st], pos := 0, failed := false, reads := [] } }

/-- The identity tables (TF1): the byte at 0x1200 + k is k mod 256, for every table. -/
def identityTables : Memory :=
  Memory.store [] 0x1200 ((List.range 0xE00).map (BitVec.ofNat 8))

/-- Key, block and identity tables, all valid. -/
def identityState (b : Bytes8) : State :=
  keyed identityTables b

theorem identityTables_wf : Memory.wf identityTables = true :=
  Memory.wf_store Memory.wf_nil (le_refl _) (by rw [List.length_map, List.length_range]; decide)

theorem identityState_entry (b : Bytes8) (d : Dir) (p : Fin 8) (x : Byte) : (identityState b).entry d p x = x := by
  by_cases hp : p = 0
  · rw [hp]; rfl
  · rw [State.entry_of_ne hp]
    have hr := tableBase_range hp d
    have hx := x.isLt
    have he : tableAddr p d x = 0x1200 + (tableAddr p d x - 0x1200) := by simp only [tableAddr]; omega
    have hm : (tableAddr p d x - 0x1200) % 256 = x.toNat := by
      simp only [tableAddr, tableBase] at hr ⊢
      omega
    have hl : tableAddr p d x - 0x1200 < 0xE00 := by simp only [tableAddr]; omega
    rw [he]
    refine (Memory.read_store_inside [] 0x1200 _ _ (by rw [List.length_map, List.length_range]; exact hl)).trans ?_
    rw [List.getElem_map, List.getElem_range]
    exact BitVec.eq_of_toNat_eq (by rw [BitVec.toNat_ofNat]; exact hm)

/-- R26's consequent holds of the identity tables. -/
theorem identityState_inv (b : Bytes8) : (identityState b).Inv where
  tablesWf := identityTables_wf
  errDefined := by show (0 : BitVec 3) ≠ 7; decide
  tablesInverse := fun _ p => by
    have he := fun x => identityState_entry b .enc p x
    have hd := fun x => identityState_entry b .dec p x
    exact ⟨by rw [funext he]; exact Function.bijective_id, fun x => by rw [he, hd]⟩

/-! ## Well-formedness -/

/-- R50: no command has a field. -/
theorem test_commands_wellFormed : Instr.nop.wellFormed = true ∧ Instr.errClear.wellFormed = true := by decide

/-- A label may not stand twice. -/
theorem test_script_duplicate_label : scriptWellFormed [.label 1, .cmd .nop, .label 1] = false := by decide

/-- A bnz must name a label of the script. -/
theorem test_script_unknown_label : scriptWellFormed [.label 1, .bnz 2 0x0002 0x01] = false := by decide

theorem test_script_good : scriptWellFormed [.label 1, .rd 0x0008, .bnz 1 0x0002 0x01, .check] = true := by decide

/-! ## Decoding: R51's table, bit by bit -/

theorem test_decode_nop : decode 0b00000000#8 = .command .nop := by decide
theorem test_decode_keyClear : decode 0b00000001#8 = .command .keyClear := by decide
theorem test_decode_keyAbsorb : decode 0b00000010#8 = .command .keyAbsorb := by decide
theorem test_decode_tblGen : decode 0b00000011#8 = .command .tblGen := by decide
theorem test_decode_encrypt : decode 0b00000100#8 = .command .encrypt := by decide
theorem test_decode_decrypt : decode 0b00000101#8 = .command .decrypt := by decide
theorem test_decode_keymix : decode 0b00000110#8 = .command .keymix := by decide
theorem test_decode_sub : decode 0b00000111#8 = .command .sub := by decide
theorem test_decode_invsub : decode 0b00001000#8 = .command .invsub := by decide
theorem test_decode_rotl : decode 0b00001001#8 = .command .rotl := by decide
theorem test_decode_rotr : decode 0b00001010#8 = .command .rotr := by decide
theorem test_decode_encRound : decode 0b00001011#8 = .command .encRound := by decide
theorem test_decode_decRound : decode 0b00001100#8 = .command .decRound := by decide
theorem test_decode_errClear : decode 0b00001101#8 = .command .errClear := by decide
/-- R54: the first and the last illegal opcode. -/
theorem test_decode_illegal : decode 0b00001110#8 = .illegal 0x0E ∧ decode 0b11111111#8 = .illegal 0xFF := by decide
theorem test_decodeTableWord : decodeTableWord 8 0x0C = some .decRound ∧ decodeTableWord 8 0x0E = none := by decide

/-! ## Commands -/

/-- HI14, HI15. -/
theorem test_nop_clears_busy : (after (step (pending 0x00))).map (fun t => (t.status, t.err)) = some (0x00, 0) := by
  decide
theorem test_nop_keeps_err :
    (after (step { pending 0x00 with err := 2 })).map (fun t => (t.busy, t.err)) = some (false, 2) := by decide

/-- HI16: STATUS 0x21 before, 0x00 after. -/
theorem test_errClear : State.status { pending 0x0D with err := 2 } = 0x21 ∧
    (after (step { pending 0x0D with err := 2 })).map State.status = some 0x00 := by decide

/-- KD10. -/
theorem test_keyClear : (after (exec .keyClear (keyed [] testBlock))).map (fun t => (t.key, t.kptr, t.kvalid)) =
    some (#v[0, 0, 0, 0, 0, 0, 0, 0], 0, true) := by decide

/-- KD11 (KPTR wraps), KD9 (NOKEY, STATUS 0x20). -/
theorem test_keyAbsorb_wraps :
    (after (exec .keyAbsorb { keyed [] testBlock with arg := 0x01 })).map (fun t => (t.key, t.kptr)) =
      some (#v[0x74, 0x65, 0x73, 0x74, 0x6B, 0x65, 0x79, 0x01], 0) := by decide
theorem test_keyAbsorb_nokey :
    (after (step { pending 0x02 with arg := 0x74 })).map (fun t => (t.err, t.kptr, t.kvalid, t.status)) =
      some (2, 0, false, 0x20) := by decide

/-- TF3: the second draw is out of range; no third draw is made. -/
theorem test_tblGen_error :
    (after (exec .tblGen { State.reset with rng := ⟨[198, 255, 7, 8], 0⟩ })).map
      (fun t => (t.err, t.tvalid, t.rng.asked, t.rng.answers)) = some (5, false, 2, [7, 8]) := by rfl
/-- R82 on three entries, every draw 0 (R88's increment). -/
theorem test_shuffle_small : shuffleFrom 2 [0, 1, 2] ⟨[0, 0], 0⟩ = (some [1, 2, 0], ⟨[], 2⟩) := by decide

/-- EN1, EN27. -/
theorem test_keymix : blockAfter .keymix (keyed [] testBlock) =
    some #v[0x75, 0x67, 0x70, 0x70, 0x6E, 0x63, 0x7E, 0x08] := by decide
theorem test_keymix_needs_no_tables : (after (exec .keymix { keyed [] testBlock with tvalid := false })).map (·.err) =
    some 0 := by decide

/-- EN3: increment tables, the entries that the block looks up; then, SUB does not look in D. -/
theorem test_sub : blockAfter .sub (keyed (sparse .enc #v[0x75, 0x67, 0x70, 0x70, 0x6E, 0x63, 0x7E, 0x08]
      #v[0x76, 0x68, 0x71, 0x71, 0x6F, 0x64, 0x7F, 0x09]) #v[0x75, 0x67, 0x70, 0x70, 0x6E, 0x63, 0x7E, 0x08]) =
    some #v[0x75, 0x68, 0x71, 0x71, 0x6F, 0x64, 0x7F, 0x09] := by decide
theorem test_sub_reads_enc : blockAfter .sub (keyed (sparse .dec testBlock testBlock) testBlock) =
    some #v[1, 0, 0, 0, 0, 0, 0, 0] := by decide

/-- DE4: increment tables, the entries that the block looks up; NOBLOCK with EN24's flags. -/
theorem test_invsub : blockAfter .invsub (keyed (sparse .dec #v[0x75, 0x68, 0x71, 0x71, 0x6F, 0x64, 0x7F, 0x09]
      #v[0x74, 0x67, 0x70, 0x70, 0x6E, 0x63, 0x7E, 0x08]) #v[0x75, 0x68, 0x71, 0x71, 0x6F, 0x64, 0x7F, 0x09]) =
    some #v[0x75, 0x67, 0x70, 0x70, 0x6E, 0x63, 0x7E, 0x08] := by decide +kernel
theorem test_invsub_noblock : (after (exec .invsub { keyed [] testBlock with bwr := 0x0F })).map State.status =
    some 0x46 := by decide

/-- EN5, EN6 (wrap). -/
theorem test_rotl : blockAfter .rotl (keyed [] #v[0x01, 0x23, 0x45, 0x67, 0x89, 0xAB, 0xCD, 0xEF]) =
    some #v[0x02, 0x46, 0x8A, 0xCF, 0x13, 0x57, 0x9B, 0xDE] := by decide
theorem test_rotl_wraps : blockAfter .rotl (keyed [] #v[0x80, 0, 0, 0, 0, 0, 0, 0]) =
    some #v[0, 0, 0, 0, 0, 0, 0, 0x01] := by decide

/-- DE3, DE2 (wrap). -/
theorem test_rotr : blockAfter .rotr (keyed [] #v[0x01, 0x23, 0x45, 0x67, 0x89, 0xAB, 0xCD, 0xEF]) =
    some #v[0x80, 0x91, 0xA2, 0xB3, 0xC4, 0xD5, 0xE6, 0xF7] := by decide
theorem test_rotr_wraps : blockAfter .rotr (keyed [] #v[0, 0, 0, 0, 0, 0, 0, 0x01]) =
    some #v[0x80, 0, 0, 0, 0, 0, 0, 0] := by decide

/-- EN10: increment tables; EN28: the second error is not recorded. -/
theorem test_encRound : blockAfter .encRound (keyed (sparse .enc #v[0x75, 0x67, 0x70, 0x70, 0x6E, 0x63, 0x7E, 0x08]
      #v[0x76, 0x68, 0x71, 0x71, 0x6F, 0x64, 0x7F, 0x09]) testBlock) =
    some #v[0xEA, 0xD0, 0xE2, 0xE2, 0xDE, 0xC8, 0xFE, 0x12] := by decide
theorem test_encRound_keeps_first_error :
    (after (exec .encRound { keyed [] testBlock with tvalid := false, bwr := 0x7F, err := 2 })).map
      (fun t => (t.err, t.block)) = some (2, testBlock) := by decide

/-- DE13: increment tables, the round undone; NOTABLES with EN23's flags. -/
theorem test_decRound : blockAfter .decRound (keyed (sparse .dec #v[0x75, 0x68, 0x71, 0x71, 0x6F, 0x64, 0x7F, 0x09]
      #v[0x74, 0x67, 0x70, 0x70, 0x6E, 0x63, 0x7E, 0x08]) #v[0xEA, 0xD0, 0xE2, 0xE2, 0xDE, 0xC8, 0xFE, 0x12]) =
    some testBlock := by decide
theorem test_decRound_notables : (after (exec .decRound { State.reset with kvalid := true })).map State.status =
    some 0x32 := by decide

theorem substitute_identity (c b : Bytes8) (d : Dir) : substitute ((identityState c).entry d) b = b :=
  bytes8_ext fun p => by rw [substitute, byteAt_bytes8, identityState_entry]

/-- EN11: the source's concrete scenario S7. -/
theorem test_encrypt : blockAfter .encrypt (identityState testBlock) =
    some #v[0x06, 0xE5, 0xEA, 0xE7, 0xE4, 0xB1, 0xF7, 0x44] := by
  have h : encRound (identityState testBlock) = fun b => rotL (keyMix testKey b) := by
    funext b; rw [encRound, substitute_identity]; rfl
  have e : blockAfter .encrypt (identityState testBlock) = some ((encRound (identityState testBlock))^[16] testBlock) := rfl
  rw [e, h]
  decide +kernel
/-- EN22, EN23, EN24. -/
theorem test_encrypt_errors : (after (exec .encrypt State.reset)).map State.status = some 0x20 ∧
    (after (exec .encrypt { State.reset with kvalid := true })).map State.status = some 0x32 ∧
    (after (exec .encrypt { keyed [] testBlock with bwr := 0x0F })).map State.status = some 0x46 := by decide

/-- DE6: the source's S1, S7. -/
theorem test_decrypt :
    blockAfter .decrypt (identityState #v[0x06, 0xE5, 0xEA, 0xE7, 0xE4, 0xB1, 0xF7, 0x44]) = some testBlock := by
  have h : decRound (identityState #v[0x06, 0xE5, 0xEA, 0xE7, 0xE4, 0xB1, 0xF7, 0x44]) =
      fun b => keyMix testKey (rotR b) := by
    funext b; rw [decRound, substitute_identity]; rfl
  have e : blockAfter .decrypt (identityState #v[0x06, 0xE5, 0xEA, 0xE7, 0xE4, 0xB1, 0xF7, 0x44]) =
    some ((decRound (identityState #v[0x06, 0xE5, 0xEA, 0xE7, 0xE4, 0xB1, 0xF7, 0x44]))^[16]
      #v[0x06, 0xE5, 0xEA, 0xE7, 0xE4, 0xB1, 0xF7, 0x44]) := rfl
  rw [e, h]
  decide +kernel
/-- EN22's start, as DECRYPT raises it. -/
theorem test_decrypt_nokey : (after (exec .decrypt State.reset)).map State.status = some 0x20 := by decide

/-! ## Host accesses and reset -/

/-- HI8, HI9. -/
theorem test_illegal_command : (after (step (pending 0x0E))).map (fun t => (t.err, t.busy)) = some (1, false) ∧
    (after (step (pending 0xFF))).map (fun t => (t.err, t.busy)) = some (1, false) := by decide

/-- HI10, HI11, HI12. -/
theorem test_busy_writes : hostWrite 0x0008 0xFF (pending 0x04) = { pending 0x04 with err := 6 } ∧
    hostWrite 0x0100 0xFF (pending 0x04) = pending 0x04 ∧
    hostWrite 0x0000 0x05 (pending 0x04) = { pending 0x04 with err := 6 } := by decide

/-- HI5, HI6, HI7. -/
theorem test_reserved_addresses : (hostRead 0x0005 State.reset).1 = 0x00 ∧ (hostRead 0x0800 State.reset).1 = 0x00 ∧
    (hostRead 0x2000 State.reset).1 = 0x00 ∧ (hostRead 0xFFFF State.reset).1 = 0x00 ∧
    hostWrite 0x0002 0xFF State.reset = State.reset ∧ hostWrite 0x0010 0x55 State.reset = State.reset := by decide

/-- 95 section 3.2: what the window addresses decode as. -/
theorem test_window_addresses : hostReg 0x12FF = .table 1 .enc 0xFF ∧ hostReg 0x1300 = .table 1 .dec 0x00 ∧
    hostReg 0x1042 = .table 0 .enc 0x42 ∧ hostReg 0x1142 = .table 0 .dec 0x42 ∧ hostReg 0x1E10 = .table 7 .enc 0x10 ∧
    hostReg 0x1F10 = .table 7 .dec 0x10 := by decide

/-- HI18: the reset input while a TBL_GEN is pending makes no draw. -/
theorem test_reset_input :
    (after (step { pending 0x03 with sched := [.reset], arg := 9, kptr := 3, bwr := 0x0F, rng := ⟨[1, 2], 5⟩ })).map
      (fun t => (t.status, t.bwr, t.kptr, t.arg, t.rng)) = some (0x00, 0x00, 0, 0x00, ⟨[1, 2], 5⟩) := by decide

/-- P1: 62 bus transactions, labels being none. -/
theorem test_p1_transactions :
    ((expandScript [.derive (stringBytes "testkey"), .readkey, .doCmd .tblGen, .loadblk testBlock, .doCmd .encrypt,
        .readblk, .doCmd .decrypt, .readblk, .stmt .check]).filter
      (fun st => match st with | .label _ => false | _ => true)).length = 62 := by decide

/-- Log entry 13: a bnz whose target no line writes is not captured by the label that wait makes. -/
theorem test_fresh_label : expandScript [.stmt (.bnz 0 0x0002 0x01), .wait] =
    [.bnz 0 0x0002 0x01, .label 1, .bnz 1 0x0002 0x01] ∧
    scriptWellFormed (expandScript [.stmt (.bnz 0 0x0002 0x01), .wait]) = false := by decide

/-- R180: a run is not over while an access is ahead or a command is pending; labels alone are no access. -/
theorem test_run_end : State.reset.runEnded = true ∧ (pending 0x00).runEnded = false ∧
    (atStmt (.rd 0x0002)).runEnded = false ∧ (atStmt (.label 3)).runEnded = true ∧
    (after (step (atStmt (.rd 0x0002)))).map (fun t => (t.runEnded, t.observation.values)) = some (true, [0x00]) := by
  decide

/-- P2's end, R180: a run that ends with ERR = BUSY has had an error. -/
theorem test_ends_in_error : State.endsInError { State.reset with err := 6 } = true ∧
    State.reset.endsInError = false := by decide

/-! ## Witnesses: the hypotheses of the statements are met -/

/-- Every draw answers 0 (TF2). -/
def zeroDraws : RandomSource := ⟨List.replicate 1785 0, 0⟩

/-- Every draw answers its bound (TF1). -/
def boundDraws : RandomSource := ⟨(List.range 1785).map fun n => BitVec.ofNat 8 (drawBound n), 0⟩

/-- Number n answers 255 and every draw before it 0. -/
def lateDraws (n : Nat) : RandomSource := ⟨List.replicate n 0 ++ [255], 0⟩

theorem zeroDraws_answer {k : Nat} (h : k < 1785) : drawAnswer zeroDraws k = 0 := by
  rw [drawAnswer, zeroDraws, List.getD_eq_getElem _ _ (by rw [List.length_replicate]; exact h), List.getElem_replicate]

theorem boundDraws_answer {k : Nat} (h : k < 1785) : (drawAnswer boundDraws k).toNat = drawBound k := by
  rw [drawAnswer, boundDraws, List.getD_eq_getElem _ _ (by rw [List.length_map, List.length_range]; exact h),
    List.getElem_map, List.getElem_range, BitVec.toNat_ofNat]
  simp only [drawBound]
  omega

/-- TblGenIsFisherYates, GeneratedTablesAreInverseBijections, ShuffleClosedForms: all draws in range. -/
theorem witness_draws_in_range : DrawsInRange zeroDraws Config.drawsPerGen ∧ DrawsInRange boundDraws Config.drawsPerGen :=
  ⟨fun k hk => by rw [zeroDraws_answer hk]; exact Nat.zero_le _, fun k hk => (boundDraws_answer hk).le⟩

/-- ShuffleClosedForms: the draws of tables 1 and 7 all 0, or all equal to their bounds. -/
theorem witness_closed_forms :
    (∀ k < 255, drawAnswer zeroDraws (255 * ((1 : Fin 8).val - 1) + k) = 0 ∧
      drawAnswer zeroDraws (255 * ((7 : Fin 8).val - 1) + k) = 0) ∧
    ∀ k < 255, (drawAnswer boundDraws (255 * ((1 : Fin 8).val - 1) + k)).toNat = 255 - k ∧
      (drawAnswer boundDraws (255 * ((7 : Fin 8).val - 1) + k)).toNat = 255 - k := by
  have h1 : (1 : Fin 8).val = 1 := rfl
  have h7 : (7 : Fin 8).val = 7 := rfl
  refine ⟨fun k hk => ⟨zeroDraws_answer (by omega), zeroDraws_answer (by omega)⟩, fun k hk => ⟨?_, ?_⟩⟩
  · rw [boundDraws_answer (by omega)]; simp only [drawBound]; omega
  · rw [boundDraws_answer (by omega)]; simp only [drawBound]; omega

/-- OutOfRangeDrawStopsTblGen: the last draw, number 1784 with bound 1, is the first out of range. -/
theorem witness_out_of_range : 1784 < Config.drawsPerGen ∧ DrawsInRange (lateDraws 1784) 1784 ∧
    drawBound 1784 < (drawAnswer (lateDraws 1784) 1784).toNat := by
  refine ⟨by decide, fun k hk => ?_, ?_⟩
  · rw [drawAnswer, lateDraws, List.getD_append _ _ _ _ (by rw [List.length_replicate]; exact hk),
      List.getD_eq_getElem _ _ (by rw [List.length_replicate]; exact hk), List.getElem_replicate]
    exact Nat.zero_le _
  · rw [drawAnswer, lateDraws, List.getD_append_right _ _ _ _ (by rw [List.length_replicate])]
    rw [List.length_replicate]
    decide
/-- OutOfRangeDrawStopsTblGen: draw 1 with bound 254 answers 255 (TF3). -/
theorem witness_out_of_range_early : 1 < Config.drawsPerGen ∧ DrawsInRange (lateDraws 1) 1 ∧
    drawBound 1 < (drawAnswer (lateDraws 1) 1).toNat :=
  ⟨by decide, fun k hk => by rw [Nat.lt_one_iff.mp hk]; decide, by decide⟩

/-- StepRunsDecodedCommand, NopDoesNothing, ErrClearClearsErr, IllegalOpcodeRaisesIllegal, FirstFailingCheckIsRecorded: a
command pending and the engine's turn next, by the interleaving or because it says nothing. -/
theorem witness_engine_turn :
    (pending 0x00).engineNext ∧ (pending 0x00).busy = true ∧ decode (pending 0x00).lcmd = .command .nop ∧
    (pendingCommand 0x0D State.reset).engineNext ∧ (pendingCommand 0x0D State.reset).busy = true ∧
    decode (pendingCommand 0x0D State.reset).lcmd = .command .errClear ∧ Instr.errClear.wellFormed = true ∧
    ((0x0D, .errClear) : Byte × Instr) ∈ opcodeMap ∧
    (pending 0x0E).engineNext ∧ 0x0E ≤ (pending 0x0E).lcmd.toNat ∧ (pending 0xFF).engineNext :=
  ⟨.inr ⟨rfl, rfl⟩, rfl, rfl, .inl rfl, rfl, rfl, rfl, by decide, .inr ⟨rfl, rfl⟩, by decide, .inr ⟨rfl, rfl⟩⟩

/-- IllegalOpcodeRaisesIllegal: the first and the last illegal opcode, written while BUSY = 0. -/
theorem witness_illegal_idle_write : State.reset.busy = false ∧ 0x0E ≤ (0x0E : Byte).toNat ∧ 0x0E ≤ (0xFF : Byte).toNat := by
  decide

/-- IdleEngineHasNoStep, IdleMachineWaitsForHost: the engine's turn with BUSY = 0; the host done, and failed. -/
theorem witness_idle : State.engineNext { State.reset with sched := [.engine] } ∧ State.reset.busy = false ∧
    State.reset.hostNext ∧ State.reset.host.script.length ≤ State.reset.host.pos ∧
    State.hostNext { State.reset with host := ⟨[.rd 0x0002], 0, true, []⟩ } :=
  ⟨.inl rfl, rfl, .inr ⟨rfl, rfl⟩, Nat.le_refl _, .inr ⟨rfl, rfl⟩⟩

/-- PendingCommandIsNotLeftPending, PendingCommandIsPerformed, WellFormedScriptNeverStops: a polling host with two turns before the engine's. -/
theorem witness_pending : scriptWellFormed [.label 0, .bnz 0 0x0002 0x01] = true ∧ Turn.reset ∉ [Turn.host, .host] ∧
    decode (pending 0x04).lcmd = .command .encrypt ∧ 0x0E ≤ (pending 0x0E).lcmd.toNat ∧
    State.busy { pending 0x04 with
      host := ⟨[.label 0, .bnz 0 0x0002 0x01], 0, false, []⟩, sched := [.host, .host] } = true := by decide

/-- EveryStepKeepsTheInvariant: a ready machine with an ENCRYPT pending, and its next state. -/
theorem witness_invariant_step : State.Inv { identityState testBlock with busy := true } ∧
    ∃ t, step { identityState testBlock with busy := true } = .next t :=
  ⟨⟨identityTables_wf, (by decide : (0 : BitVec 3) ≠ 7), fun _ => (identityState_inv testBlock).tablesInverse rfl⟩, _, rfl⟩

/-- UnspecifiedDataIsNeverObservable: states apart in block, key, tables and latch; one steps, and one faults. -/
theorem witness_same_visible :
    SameVisible State.reset { State.reset with block := testBlock, key := testKey, tables := identityTables, lcmd := 9 } ∧
    (∃ t, step State.reset = .next t) ∧
    step { atStmt (.bnz 3 0x0001 0x01) with arg := 0x01 } = .fault (.missingLabel 3) ∧
    SameVisible { atStmt (.bnz 3 0x0001 0x01) with arg := 0x01 }
      { atStmt (.bnz 3 0x0001 0x01) with arg := 0x01, block := testBlock } := by
  refine ⟨⟨rfl, rfl, rfl, rfl, rfl, rfl, rfl, rfl, rfl, rfl, rfl, ?_, ?_, ?_, ?_⟩, ⟨_, rfl⟩, rfl,
    ⟨rfl, rfl, rfl, rfl, rfl, rfl, rfl, rfl, rfl, rfl, rfl, ?_, ?_, ?_, ?_⟩⟩
  · exact fun h => absurd h (by decide)
  · exact fun p h => absurd (h.symm.trans (BitVec.getLsbD_zero (w := 8) (i := p.val))) (by decide)
  · exact fun h => absurd h (by decide)
  · exact fun h => absurd h (by decide)
  · exact fun h => absurd h (by decide)
  · exact fun p h => absurd (h.symm.trans (BitVec.getLsbD_zero (w := 8) (i := p.val))) (by decide)
  · exact fun h => absurd h (by decide)
  · exact fun h => absurd h (by decide)

/-- The command statements' clauses: a state where each check is the first that fails, and one where none fails. Also of
FirstFailingCheckIsRecorded, RotationsUndoEachOther, SixtyFourRotationsRestoreBlock. -/
theorem witness_checks : State.reset.kvalid = false ∧ State.reset.tvalid = false ∧ State.reset.bwr ≠ 0xFF ∧
    State.kvalid { State.reset with kvalid := true } = true ∧ State.tvalid { State.reset with kvalid := true } = false ∧
    State.bwr { keyed [] testBlock with bwr := 0x7F } ≠ 0xFF ∧ State.kvalid { keyed [] testBlock with bwr := 0x7F } = true ∧
    State.tvalid { keyed [] testBlock with bwr := 0x7F } = true ∧ (keyed [] testBlock).bwr = 0xFF ∧
    (keyed [] testBlock).kvalid = true ∧ (keyed [] testBlock).tvalid = true := by decide

/-- FirstFailingCheckIsRecorded: each list has members inside and outside the list before it. -/
theorem witness_command_lists : Instr.keyAbsorb ∈ keyCommands ∧ Instr.sub ∈ tableCommands ∧ Instr.sub ∉ keyCommands ∧
    Instr.decrypt ∈ tableCommands ∧ Instr.decrypt ∈ keyCommands ∧ Instr.rotl ∈ blockCommands ∧
    Instr.rotl ∉ tableCommands ∧ Instr.nop ∉ blockCommands ∧ Instr.tblGen ≠ .errClear := by decide

/-- IdentityTablesMakeEncryptAffine, StepsUndoEachOther, DecryptUndoesEncrypt: a ready machine with identity tables. -/
theorem witness_ready : (identityState testBlock).Inv ∧ (identityState testBlock).kvalid = true ∧
    (identityState testBlock).tvalid = true ∧ (identityState testBlock).bwr = 0xFF ∧
    ∀ p x, (identityState testBlock).entry .enc p x = x :=
  ⟨identityState_inv _, rfl, rfl, rfl, identityState_entry _ _⟩

/-- TableZeroIsIdentity, TableWindow, ResetStateIsAsStated, OutOfRangeDrawStopsTblGen: the ends of their address ranges. -/
theorem witness_window_addresses : State.reset.busy = false ∧ 0x1000 ≤ (0x1000 : Addr).toNat ∧ (0x11FF : Addr).toNat < 0x1200 ∧
    0x1200 ≤ (0x1200 : Addr).toNat ∧ (0x1FFF : Addr).toNat < 0x2000 ∧ 0x0008 ≤ (0x0008 : Addr).toNat ∧
    (0x0017 : Addr).toNat < 0x0018 := by decide

/-- IdleHostWrite, BusyHostWrite, IdleHostRead, BusyHostRead: an address at each end of each clause's range. -/
theorem witness_host_addresses : (0x0008 : Addr).toNat = 0x0008 + (0 : Fin 8).val ∧
    (0x000F : Addr).toNat = 0x0008 + (7 : Fin 8).val ∧ (0x0010 : Addr).toNat = 0x0010 + (0 : Fin 8).val ∧
    (0x0017 : Addr).toNat = 0x0010 + (7 : Fin 8).val ∧
    (0x1000 : Addr).toNat = 0x1000 + 0x200 * (0 : Fin 8).val + (0x00 : Byte).toNat ∧
    (0x1FFF : Addr).toNat = 0x1000 + 0x200 * (7 : Fin 8).val + 0x100 + (0xFF : Byte).toNat ∧
    hostReg 0x0002 = .status ∧ hostReg 0x0007 = .reserved ∧ hostReg 0x0008 = .block 0 ∧ hostReg 0x000F = .block 7 ∧
    hostReg 0x0010 = .key 0 ∧ hostReg 0x0017 = .key 7 ∧ hostReg 0x0018 = .reserved ∧ hostReg 0x0FFF = .reserved ∧
    hostReg 0x1000 = .table 0 .enc 0 ∧ hostReg 0x1FFF = .table 7 .dec 0xFF ∧ hostReg 0x2000 = .reserved := by decide

/-- IdleHostRead: a written and an unwritten block byte, a valid and an invalid key and tables; BusyHostRead, BusyHostWrite:
BUSY = 1. -/
theorem witness_host_states : (keyed [] testBlock).bwr.getLsbD 7 = true ∧ State.reset.bwr.getLsbD 0 = false ∧
    (keyed [] testBlock).busy = false ∧ (keyed [] testBlock).kvalid = true ∧ State.reset.kvalid = false ∧
    (keyed [] testBlock).tvalid = true ∧ State.reset.tvalid = false ∧ (pending 0x04).busy = true := by decide

/-- ErrIsSticky: both ways back to ERR = 0. -/
theorem witness_err_cleared :
    (step { pending 0x0D with err := 2 } = .next { pending 0x0D with err := 0, busy := false }) ∧
    State.resetNext { State.reset with err := 2, sched := [.reset] } ∧
    step { State.reset with err := 2, sched := [.reset] } = .next State.reset :=
  ⟨rfl, rfl, rfl⟩

/-- OnlyResetClearsKvalidAndBwr: a reset turn; and a step that is none, with KVALID and BWR set. -/
theorem witness_reset_turn : State.resetNext { pending 0x03 with sched := [.reset] } ∧
    ¬ (keyed [] testBlock).resetNext ∧ (keyed [] testBlock).kvalid = true ∧
    (keyed [] testBlock).bwr.getLsbD 0 = true ∧ ∃ t, step (keyed [] testBlock) = .next t :=
  ⟨rfl, by unfold State.resetNext; decide, rfl, rfl, _, rfl⟩

/-- HostScriptStatements, PseudoInstructionExpansions: the host's turn at a statement of each kind. -/
theorem witness_host_turn (st : HostStmt) : (atStmt st).hostNext ∧ (atStmt st).host.failed = false ∧
    (atStmt st).host.script[(atStmt st).host.pos]? = some st :=
  ⟨.inr ⟨rfl, rfl⟩, rfl, rfl⟩

/-- HostScriptStatements: a branch taken to its label, and one not taken. -/
theorem witness_branch :
    (after (step { atStmt .check with host := ⟨[.label 5, .rd 0x0000, .bnz 5 0x0001 0x01], 2, false, []⟩, arg := 0x01 })).map
      (·.host.pos) = some 0 ∧
    (after (step { atStmt .check with host := ⟨[.label 5, .rd 0x0000, .bnz 5 0x0001 0x01], 2, false, []⟩, arg := 0x02 })).map
      (·.host.pos) = some 3 := by decide

/-- ExpansionsAreWellFormed: lines with a label and a branch of their own (P3's loop) beside pseudo-instructions. -/
theorem witness_expansion :
    scriptWellFormed ([Pseudo.doCmd .keyClear, .stmt (.label 0), .doCmd .keyAbsorb, .doCmd .rotl,
      .stmt (.bnz 0 0x0003 0x07), .readblk].filterMap fun ps => match ps with | .stmt st => some st | _ => none) = true := by
  decide

/-- EndedRunIsFinal: an ended run that has read a value, the next turn not the reset input's. -/
theorem witness_ended : State.runEnded { State.reset with host := ⟨[.rd 0x0002, .label 0], 1, false, [(0x0002, 0x00)]⟩ } = true ∧
    ¬ State.reset.resetNext := by
  refine ⟨by decide, ?_⟩
  unfold State.resetNext
  decide

/-- RunThatEndsInErrorHasHadIt: an illegal opcode, and a host write while BUSY = 1, each one step from ERR = 0. -/
theorem witness_run_error : ((after (runSteps 1 (pending 0x0E))).map (·.err) = some 1 ∧ (pending 0x0E).err = 0) ∧
    (after (runSteps 1 { atStmt (.wr 0x0001 0x00) with busy := true, sched := [.host] })).map (·.err) = some 6 := by
  decide

/-- ErrDoesNotChangeCommands, OnlyKeyAbsorbReadsArg, EncodeAndDecodeAgree: their premises on the command. -/
theorem witness_commands : Instr.encrypt ≠ .keyAbsorb ∧ Instr.nop.wellFormed = true ∧ decode 0x00 = .command .nop := by
  decide

end Sys2Proof.Machine
end

section
/-! PROOFS. The two views of the block (R5): which bits of the 64-bit view each byte is, and that each view gives back
the other. -/

namespace Sys2Proof.Machine

@[simp] theorem byteAt_ofBlock64 (v : Quad) (p : Fin 8) :
    byteAt (ofBlock64 v) p = v.extractLsb' (56 - 8 * p.val) 8 :=
  byteAt_bytes8 _ p

/-- One walk down the concatenation: the 7 - p bytes below byte p are passed, then bit j falls in byte p. -/
theorem getLsbD_block64 (b : Bytes8) (p : Fin 8) {j : Nat} (hj : j < 8) :
    (block64 b).getLsbD (56 - 8 * p.val + j) = (byteAt b p).getLsbD j := by
  have hbelow {n : Nat} (hn : 8 ≤ n) : ¬ j + n < 8 := by omega
  simp only [block64, BitVec.getLsbD_append, Nat.add_comm _ j]
  match p with
  | 0 | 1 | 2 | 3 | 4 | 5 | 6 | 7 => simp [hj, hbelow]

@[simp] theorem extractLsb'_block64 (b : Bytes8) (p : Fin 8) :
    (block64 b).extractLsb' (56 - 8 * p.val) 8 = byteAt b p := by
  refine BitVec.eq_of_getLsbD_eq fun j hj => ?_
  rw [BitVec.getLsbD_extractLsb', getLsbD_block64 b p hj]
  simp [hj]

/-- Bit i of a 64-bit word lies in its byte 7 - i / 8, so words that agree byte for byte are equal. -/
theorem quad_ext_bytes {v w : Quad}
    (h : ∀ p : Fin 8, v.extractLsb' (56 - 8 * p.val) 8 = w.extractLsb' (56 - 8 * p.val) 8) : v = w := by
  refine BitVec.eq_of_getLsbD_eq fun i hi => ?_
  have hbit : 56 - 8 * (7 - i / 8) + i % 8 = i := by omega
  have hbyte := congrArg (·.getLsbD (i % 8)) (h ⟨7 - i / 8, by omega⟩)
  simpa only [BitVec.getLsbD_extractLsb', hbit, Nat.mod_lt i (by decide : 8 > 0), decide_true, Bool.true_and]
    using hbyte

@[simp] theorem ofBlock64_block64 (b : Bytes8) : ofBlock64 (block64 b) = b :=
  bytes8_ext fun p => by rw [byteAt_ofBlock64, extractLsb'_block64]

@[simp] theorem block64_ofBlock64 (v : Quad) : block64 (ofBlock64 v) = v :=
  quad_ext_bytes fun p => by rw [extractLsb'_block64, byteAt_ofBlock64]

/-- Settles O39: the byte layout of each view, and from it the two round trips. -/
theorem blockViewsAreInverse : Obligations.BlockViewsAreInverse :=
  ⟨ofBlock64_block64, block64_ofBlock64, fun b p => (extractLsb'_block64 b p).symm, byteAt_ofBlock64⟩

end Sys2Proof.Machine
end

section
/-! PROOFS. The invariant of 10_state.md: a generated pair is a permutation and its inverse (R26, R87), ERR never takes
the reserved code (R150), and every agent's turn keeps both. -/

namespace Sys2Proof.Machine

/-! ## A table as a permutation -/

/-- Looking a byte up in a table is a permutation of the 256 bytes (R87). -/
theorem IsTable.bijective_lookup {A : List Byte} (h : IsTable A) :
    Function.Bijective fun x : Byte => A[x.toNat]'(h.length ▸ x.isLt) :=
  Finite.injective_iff_bijective.mp fun x y e => BitVec.eq_of_toNat_eq (h.getElem_inj x.isLt y.isLt e)

/-- Looking the result up in the inverted table gives the byte back (R84). -/
theorem IsTable.invertTable_lookup {A : List Byte} (h : IsTable A) (x : Byte) :
    (invertTable A)[(A[x.toNat]'(h.length ▸ x.isLt)).toNat]'(by rw [invertTable_length]; exact BitVec.isLt _) = x :=
  (invertTable_getElem h x.toNat x.isLt).trans (BitVec.eq_of_toNat_eq (by simp))

/-- After a complete TBL_GEN every position holds a permutation and its inverse: position 0 by hardwiring (R17), 1 to 7
as stored (R80). -/
theorem tablesInverse_of_genTables {s : State} {m : Memory} {r r' : RandomSource}
    (h : genTables generatedPositions m r = (some s.tables, r')) : s.TablesInverse := by
  intro p
  by_cases hp : p = 0
  · subst hp
    exact ⟨Function.bijective_id, fun _ => rfl⟩
  · obtain ⟨_, _, hstored⟩ := genTables_spec (by decide) (by decide) h
    have hmem : ∀ p : Fin 8, p ≠ 0 → p ∈ generatedPositions := by decide
    obtain ⟨A, hA, henc, hdec⟩ := hstored p (hmem p hp)
    have he : s.entry .enc p = fun x => A[x.toNat]'(hA.length ▸ x.isLt) :=
      funext fun x => (State.entry_of_ne hp s .enc x).trans (henc x)
    rw [he]
    refine ⟨hA.bijective_lookup, fun x => ?_⟩
    rw [State.entry_of_ne hp, hdec]
    exact hA.invertTable_lookup x

/-! ## The invariant, operation by operation -/

/-- The invariant speaks of table memory, TVALID and ERR alone: a state with these tables and a defined ERR meets it. -/
theorem State.Inv.of_same_tables {s t : State} (h : s.Inv) (htables : t.tables = s.tables)
    (htvalid : t.tvalid = s.tvalid) (herr : t.err ≠ 7) : t.Inv where
  tablesWf := htables ▸ h.tablesWf
  errDefined := herr
  tablesInverse hv p := by
    rw [State.entry_congr htables]
    exact h.tablesInverse (htvalid ▸ hv) p

/-- While TVALID = 0 the invariant asks nothing of what the tables hold. -/
theorem State.Inv.of_tvalid_false {s : State} (hwf : Memory.wf s.tables = true) (herr : s.err ≠ 7)
    (hv : s.tvalid = false) : s.Inv where
  tablesWf := hwf
  errDefined := herr
  tablesInverse h := absurd (hv.symm.trans h) Bool.false_ne_true

theorem raiseError_inv {s : State} (h : s.Inv) (c : ErrCode) : (raiseError c s).Inv := by
  rw [raiseError_eq]
  refine h.of_same_tables rfl rfl ?_
  show (if s.err = 0 then c.code else s.err) ≠ 7
  split
  · exact c.code_bounds.2
  · exact h.errDefined

/-- TBL_GEN: a complete one leaves valid inverse tables, an RNG error leaves TVALID = 0 (R80, R86). -/
theorem generate_inv {s : State} (h : s.Inv) : (generate s).Inv := by
  rcases generate_cases s with ⟨m, r, hgen, hs⟩ | ⟨r, _, hs⟩ <;> rw [hs]
  · exact { tablesWf := (genTables_spec (by decide) (by decide) hgen).1 h.tablesWf
            errDefined := h.errDefined
            tablesInverse := fun _ => tablesInverse_of_genTables hgen }
  · have hwf : Memory.wf (spoilTables (s.setRng r)).tables = true := spoilTables_wf (s := s.setRng r) h.tablesWf
    exact raiseError_inv (.of_tvalid_false hwf h.errDefined rfl) .rng

theorem exec_inv {i : Instr} {s t : State} (h : s.Inv) (hexec : exec i s = .next t) : t.Inv := by
  rcases exec_cases i s with ⟨_, hi⟩ | ⟨_, hi⟩ | ⟨_, hi⟩ | ⟨_, _, hi⟩ | ⟨_, hi⟩ | ⟨_, c, hi⟩ | ⟨_, _, b, hi⟩ <;>
    obtain rfl := Host.Outcome.next.inj (hexec.symm.trans hi)
  · exact h
  · exact h.of_same_tables rfl rfl (by decide : (0 : BitVec 3) ≠ 7)
  · exact h.of_same_tables rfl rfl h.errDefined
  · exact h.of_same_tables rfl rfl h.errDefined
  · exact generate_inv h
  · exact raiseError_inv h c
  · exact h.of_same_tables rfl rfl h.errDefined

theorem hostWrite_inv {s : State} (h : s.Inv) (a : Addr) (v : Byte) : (hostWrite a v s).Inv := by
  rcases hostWrite_cases a v s with ⟨_, hw⟩ | hw | ⟨_, hw⟩ | ⟨_, hw⟩ | ⟨_, p, _, hw⟩ <;> rw [hw]
  · exact raiseError_inv h .busy
  · exact h
  all_goals exact h.of_same_tables rfl rfl h.errDefined

/-! ## The invariant, turn by turn -/

theorem engineTurn_inv {s t : State} (h : s.Inv) (hturn : engineTurn s = .next t) : t.Inv := by
  have clear : ∀ {u : State}, u.Inv → u.clearBusy.Inv := fun hu => hu.of_same_tables rfl rfl hu.errDefined
  rcases engineTurn_cases s with ⟨_, he⟩ | ⟨_, i, _, he⟩ | ⟨_, b, _, he⟩ <;> rw [he] at hturn
  · exact Host.Outcome.next.inj hturn ▸ h
  · cases hexec : exec i s with
    | next u =>
      rw [hexec, finishCommand_next] at hturn
      exact Host.Outcome.next.inj hturn ▸ clear (exec_inv h hexec)
    | fault f => simp [hexec, finishCommand] at hturn
    | refused r => simp [hexec, finishCommand] at hturn
  · exact Host.Outcome.next.inj hturn ▸ clear (raiseError_inv h .illegal)

theorem hostTurn_inv {s t : State} (h : s.Inv) (hturn : hostTurn s = .next t) : t.Inv := by
  have move : ∀ {u : State} (h' : HostAgent), u.Inv → (u.setHost h').Inv := fun _ hu =>
    hu.of_same_tables rfl rfl hu.errDefined
  rcases hostTurn_cases hturn with rfl | ⟨a, v, h', rfl⟩ | ⟨h', rfl⟩ | ⟨a, h', rfl⟩
  · exact h
  · exact move h' (hostWrite_inv h a v)
  · exact move h' h
  · obtain ⟨n, hread⟩ := recordedRead_snd a s
    rw [hread]
    exact move h' (h.of_same_tables rfl rfl h.errDefined)

/-- The reset input leaves TVALID = 0 and ERR = 0 (R171). -/
theorem assertReset_inv (s : State) : (assertReset s).Inv :=
  .of_tvalid_false rfl (by decide : (0 : BitVec 3) ≠ 7) rfl

/-- Settles O10: the turn of each agent keeps the invariant. -/
theorem everyStepKeepsTheInvariant : Obligations.EveryStepKeepsTheInvariant := by
  intro s t h hstep
  have hpop : s.popTurn.Inv := h.of_same_tables rfl rfl h.errDefined
  rcases step_cases s with ⟨_, hs⟩ | ⟨_, hs⟩ | ⟨_, hs⟩ <;> rw [hs] at hstep
  · exact engineTurn_inv hpop hstep
  · exact hostTurn_inv hpop hstep
  · exact Host.Outcome.next.inj hstep ▸ assertReset_inv s.popTurn

end Sys2Proof.Machine
end

section
/-! PROOFS. The registers of 10_state.md: which commands may write which of them, table pair 0 as the host reads it, and
the layout of STATUS. -/

namespace Sys2Proof.Machine

/-! ## The frame of the commands -/

/-- TBL_GEN touches the tables, TVALID, ERR, the random source and the free-value counter alone (R80, R86). -/
theorem generate_frame (s : State) :
    ∃ m v e r n, generate s = { s with tables := m, tvalid := v, err := e, rng := r, freeCtr := n } := by
  rcases generate_cases s with ⟨m, r, _, h⟩ | ⟨r, _, h⟩
  · exact ⟨m, true, s.err, r, s.freeCtr, h⟩
  · rw [h, raiseError_eq, spoilTables_frame]
    exact ⟨_, _, _, _, _, rfl⟩

/-- All but these five are block commands (R10). -/
theorem mem_blockCommands_of_notMem {i : Instr} (h : i ∉ [Instr.nop, .errClear, .keyClear, .keyAbsorb, .tblGen]) :
    i ∈ blockCommands := by
  revert h
  cases i <;> decide

/-- Settles O45: each way a command can end writes only the registers it names. -/
theorem commandsWriteOnlyTheirState : Obligations.CommandsWriteOnlyTheirState := by
  intro i s
  rcases exec_cases i s with ⟨rfl, h⟩ | ⟨rfl, h⟩ | ⟨rfl, h⟩ | ⟨rfl, _, h⟩ | ⟨rfl, h⟩ | ⟨hi, c, h⟩ | ⟨hi, _, b, h⟩ <;>
    refine ⟨_, h, ?_⟩
  · simp
  · simp [clearError]
  · simp [clearKey]
  · simp [absorbByte]
  · obtain ⟨m, v, e, r, n, hgen⟩ := generate_frame s
    simp [hgen]
  · have hclear : i ≠ .keyClear := fun e => hi (by simp [e])
    simp [raiseError_eq, hclear]
  · have hclear : i ≠ .keyClear := fun e => hi (by simp [e])
    simp [hclear, mem_blockCommands_of_notMem hi]

/-! ## Table pair 0 -/

/-- The addresses 0x1000 to 0x1FFF are the table window's (R31). -/
theorem hostReg_window {a : Addr} (hlo : 0x1000 ≤ a.toNat) (hhi : a.toNat < 0x2000) : hostReg a = windowEntry a := by
  have hreg {n : Nat} (hn : n < 0x1000) : a.toNat ≠ n := by omega
  have hblock : ¬ a.toNat < 0x0010 := by omega
  have hkey : ¬ a.toNat < 0x0018 := by omega
  simp [hostReg, hreg, hblock, hkey, hlo, hhi]

/-- The window's first 512 addresses are those of table pair 0 (R36). -/
theorem hostReg_pair_zero {a : Addr} (hlo : 0x1000 ≤ a.toNat) (hhi : a.toNat < 0x1200) :
    ∃ d, hostReg a = .table 0 d (BitVec.ofNat 8 (a.toNat % 256)) := by
  have hpos : a.toNat / 0x200 % 8 = 0 := by omega
  have hindex : a.setWidth 8 = BitVec.ofNat 8 (a.toNat % 256) := BitVec.eq_of_toNat_eq (by simp)
  refine ⟨if a.getLsbD 8 then .dec else .enc, ?_⟩
  simp only [hostReg_window hlo (by omega), windowEntry, hpos, hindex]
  rfl

/-- Table pair 0 is read in every state with BUSY = 0, valid tables or not (R17, R36). -/
theorem readValue_pair_zero {s : State} (h : s.busy = false) (d : Dir) (x : Byte) :
    readValue (.table 0 d x) s = some x := by
  simp [readValue, h]

/-- Settles O19: table pair 0 has no storage, so its entry is the index itself. -/
theorem tableZeroIsIdentity : Obligations.TableZeroIsIdentity := by
  refine ⟨State.entry_zero, fun s a hidle hlo hhi => ?_⟩
  obtain ⟨d, hreg⟩ := hostReg_pair_zero hlo hhi
  simp only [hostRead, hreg, readValue_pair_zero hidle]

/-! ## STATUS -/

/-- BVALID is the conjunction of the bits of BWR (R12). -/
theorem bvalid_iff (s : State) : s.bvalid = true ↔ ∀ p : Fin 8, s.bwr.getLsbD p.val = true := by
  have hones : ∀ p : Fin 8, (0xFF : BitVec 8).getLsbD p.val = true := by decide
  rw [State.bvalid, beq_iff_eq]
  constructor
  · intro h p
    rw [h, hones p]
  · intro h
    exact BitVec.eq_of_getLsbD_eq fun i hi => (h ⟨i, hi⟩).trans (hones ⟨i, hi⟩).symm

/-- STATUS has no writable bit, whatever BUSY is (R32, R33). -/
theorem hostWrite_status (v : Byte) (s : State) : hostWrite 0x0002 v s = s := by
  have hreg : hostReg 0x0002 = .status := by decide
  cases hb : s.busy <;> simp only [hostWrite, hreg, hb] <;> rfl

/-- The bits of STATUS: one walk down the concatenation of R23, bits 6:4 being ERR and those above it 0. -/
theorem getLsbD_status (s : State) (i : Nat) :
    s.status.getLsbD i =
      if i = 0 then s.busy else if i = 1 then s.kvalid else if i = 2 then s.tvalid else if i = 3 then s.bvalid
      else s.err.getLsbD (i - 4) := by
  simp only [State.status, BitVec.getLsbD_append]
  match i with
  | 0 | 1 | 2 | 3 => simp
  | i + 4 => simpa using BitVec.lt_of_getLsbD

/-- Settles O40: the fields of STATUS by their position in the concatenation of R23. -/
theorem statusLayout : Obligations.StatusLayout := by
  intro s
  have herr : s.status.extractLsb' 4 3 = s.err := BitVec.eq_of_getLsbD_eq fun i hi => by
    have hfield {n : Nat} (hn : n < 4) : 4 + i ≠ n := by omega
    simp [getLsbD_status, hfield, hi]
  refine ⟨?_, ?_, ?_, ?_, herr, ?_, bvalid_iff s, by decide, fun v => hostWrite_status v s⟩ <;>
    rw [getLsbD_status] <;> simp

end Sys2Proof.Machine
end

section
/-! PROOFS. The host interface of 20_memory.md: the register map read in both directions (R31), the decoding of the
table window (R36), and from them what a read returns and a write changes at every address (R32 to R35, R42). -/

namespace Sys2Proof.Machine

/-! ## The table window -/

/-- A window address in the terms of R36: `0x1000 + 0x200*p + 0x100*dir + x`. -/
theorem tableAddr_eq (p : Fin 8) (d : Dir) (x : Byte) :
    tableAddr p d x = 0x1000 + 0x200 * p.val + (if d = .dec then 0x100 else 0) + x.toNat := by
  cases d <;> rfl

/-- The entries of all tables lie in the window. -/
theorem tableAddr_range (p : Fin 8) (d : Dir) (x : Byte) : 0x1000 ≤ tableAddr p d x ∧ tableAddr p d x < 0x2000 := by
  have := p.isLt
  have := x.isLt
  rw [tableAddr_eq]
  split <;> omega

/-- No two table entries share an address: tables lie apart, and within one the index is the offset. -/
theorem tableAddr_inj {p q : Fin 8} {d e : Dir} {x y : Byte} (h : tableAddr p d x = tableAddr q e y) :
    p = q ∧ d = e ∧ x = y := by
  have hx := tableAddr_bounds p d x
  have hy := tableAddr_bounds q e y
  have hpair : (p, d) = (q, e) := by
    by_contra hne
    have := tableBase_apart hne
    omega
  obtain ⟨rfl, rfl⟩ := Prod.mk.inj hpair
  exact ⟨rfl, rfl, BitVec.eq_of_toNat_eq (Nat.add_left_cancel h)⟩

/-- The three fields of a window address, put together again, are the address (R36). -/
theorem windowFields_addr {a : Addr} (hlo : 0x1000 ≤ a.toNat) (hhi : a.toNat < 0x2000) :
    tableAddr ⟨a.toNat / 0x200 % 8, Nat.mod_lt _ (by decide)⟩ (if a.getLsbD 8 then .dec else .enc) (a.setWidth 8) =
      a.toNat := by
  have hbit : a.getLsbD 8 = decide (a.toNat / 0x100 % 2 = 1) := by
    simp [BitVec.getLsbD, Nat.testBit_eq_decide_div_mod_eq]
  rw [tableAddr_eq, hbit, BitVec.toNat_setWidth]
  by_cases hdir : a.toNat / 0x100 % 2 = 1 <;> simp [hdir] <;> omega

/-! ## The register map -/

/-- R31's register map as a relation: the register stands at host address n. -/
def HostReg.StandsAt (n : Nat) : HostReg → Prop
  | .cmd => n = 0x0000
  | .arg => n = 0x0001
  | .status => n = 0x0002
  | .kptr => n = 0x0003
  | .bwr => n = 0x0004
  | .block p => n = 0x0008 + p.val
  | .key p => n = 0x0010 + p.val
  | .table p d x => n = tableAddr p d x
  | .reserved => (0x0005 ≤ n ∧ n ≤ 0x0007) ∨ (0x0018 ≤ n ∧ n ≤ 0x0FFF) ∨ 0x2000 ≤ n

/-- What an address names stands at that address. -/
theorem hostReg_standsAt (a : Addr) : (hostReg a).StandsAt a.toNat := by
  by_cases hwin : 0x1000 ≤ a.toNat ∧ a.toNat < 0x2000
  · rw [hostReg_window hwin.1 hwin.2]
    exact (windowFields_addr hwin.1 hwin.2).symm
  · unfold hostReg
    split_ifs <;> simp only [HostReg.StandsAt] <;> omega

/-- An address names the register that stands there: registers of different kinds have no address in common. -/
theorem hostReg_of_standsAt {a : Addr} {r : HostReg} (h : r.StandsAt a.toNat) : hostReg a = r := by
  cases r with simp only [HostReg.StandsAt] at h
  | cmd | arg | status | kptr | bwr => simp [hostReg, h]
  | block p =>
    have hone {n : Nat} (hn : n < 8) : a.toNat ≠ n := by omega
    have hp : a.toNat % 8 = p.val := by omega
    simp [hostReg, hone, hp, show 0x0008 ≤ a.toNat ∧ a.toNat < 0x0010 by omega]
  | key p =>
    have hone {n : Nat} (hn : n < 8) : a.toNat ≠ n := by omega
    have hp : a.toNat % 8 = p.val := by omega
    simp [hostReg, hone, hp, show ¬ a.toNat < 0x0010 by omega, show 0x0010 ≤ a.toNat ∧ a.toNat < 0x0018 by omega]
  | table p d x =>
    obtain ⟨hlo, hhi⟩ := h ▸ tableAddr_range p d x
    obtain ⟨hp, hd, hx⟩ := tableAddr_inj ((windowFields_addr hlo hhi).trans h)
    rw [hostReg_window hlo hhi, windowEntry, hp, hd, hx]
  | reserved =>
    have hone {n : Nat} (hn : n < 5) : a.toNat ≠ n := by omega
    simp [hostReg, hone, show ¬ (0x0008 ≤ a.toNat ∧ a.toNat < 0x0010) by omega,
      show ¬ (0x0010 ≤ a.toNat ∧ a.toNat < 0x0018) by omega, show ¬ (0x1000 ≤ a.toNat ∧ a.toNat < 0x2000) by omega]

/-! ## Writes -/

/-- With BUSY = 0 a write does what R32 says of the register that stands at the address. -/
theorem hostWrite_of_idle {s : State} (hidle : s.busy = false) {a : Addr} {r : HostReg} (h : r.StandsAt a.toNat)
    (v : Byte) : hostWrite a v s = writeIdle r v s := by
  simp [hostWrite, hidle, hostReg_of_standsAt h]

/-- With BUSY = 1 a write does what R33 says of the register that stands at the address. -/
theorem hostWrite_of_busy {s : State} (hbusy : s.busy = true) {a : Addr} {r : HostReg} (h : r.StandsAt a.toNat)
    (v : Byte) : hostWrite a v s = writeBusy r s := by
  simp [hostWrite, hbusy, hostReg_of_standsAt h]

/-- At every address but those of CMD, ARG and BLOCK a write is ignored, whatever BUSY is (R32, R33). -/
theorem hostWrite_readOnly {a : Addr} (h : (0x0002 ≤ a.toNat ∧ a.toNat < 0x0008) ∨ 0x0010 ≤ a.toNat) (v : Byte)
    (s : State) : hostWrite a v s = s := by
  have hs := hostReg_standsAt a
  unfold hostWrite
  generalize hostReg a = r at hs ⊢
  cases r with simp only [HostReg.StandsAt] at hs
  | cmd | arg | block p => omega
  | status | kptr | bwr | key p | table p d x | reserved => cases s.busy <;> rfl

/-- A loaded byte is the byte written, the other bytes stay (R11, R32). -/
theorem byteAt_loadByte (s : State) (p q : Fin 8) (v : Byte) :
    byteAt (s.loadByte p v).block q = if q = p then v else byteAt s.block q :=
  byteAt_setByte s.block p q v

/-- Loading a byte sets its bit of BWR and keeps the others (R11, R32). -/
theorem bwr_loadByte (s : State) (p q : Fin 8) (v : Byte) :
    (s.loadByte p v).bwr.getLsbD q.val = (decide (q = p) || s.bwr.getLsbD q.val) := by
  simp [Fin.ext_iff, eq_comm, Bool.or_comm]

/-- Settles O49: the write to the register that stands at the address, CMD, ARG and BLOCK[p] being the writable ones. -/
theorem idleHostWrite : Obligations.IdleHostWrite := by
  intro s a v hidle
  refine ⟨fun h => ?cmd, fun h => ?arg, fun p hp => ⟨s.loadByte p v, ?block, rfl, fun q => ⟨?byte, ?mask⟩⟩,
    fun h => hostWrite_readOnly h v s⟩
  case cmd => exact hostWrite_of_idle (r := .cmd) hidle (congrArg BitVec.toNat h) v
  case arg => exact hostWrite_of_idle (r := .arg) hidle (congrArg BitVec.toNat h) v
  case block => exact hostWrite_of_idle (r := .block p) hidle hp v
  case byte => exact byteAt_loadByte s p q v
  case mask => exact bwr_loadByte s p q v

/-- With BUSY = 1 a write to CMD, ARG or BLOCK records Error(BUSY) (R33). -/
theorem hostWrite_busy_of_writable {s : State} (hbusy : s.busy = true) {a : Addr}
    (h : a.toNat ≤ 0x0001 ∨ (0x0008 ≤ a.toNat ∧ a.toNat < 0x0010)) (v : Byte) :
    hostWrite a v s = raiseError .busy s := by
  have hs := hostReg_standsAt a
  rw [hostWrite_of_busy hbusy hs]
  generalize hostReg a = r at hs ⊢
  cases r with simp only [HostReg.StandsAt] at hs
  | cmd | arg | block p => rfl
  | status | kptr | bwr | key p | reserved => omega
  | table p d x =>
    have := tableAddr_range p d x
    omega

/-- Settles O50: a write to a writable register records the error, every other write is ignored. -/
theorem busyHostWrite : Obligations.BusyHostWrite := fun s _ v hbusy =>
  ⟨fun h => (hostWrite_busy_of_writable hbusy h v).trans (raiseError_eq .busy s), fun h => hostWrite_readOnly h v s⟩

/-! ## Reads -/

/-- A read of a register that has a definite value gives it and changes nothing (R34, R42). -/
theorem hostRead_of_some {s : State} {a : Addr} {r : HostReg} {v : Byte} (h : r.StandsAt a.toNat)
    (hv : readValue r s = some v) : hostRead a s = (v, s) := by
  simp [hostRead, hostReg_of_standsAt h, hv]

/-- A read of a register that gives any value gives the next free value. -/
theorem hostRead_of_none {s : State} {a : Addr} {r : HostReg} (h : r.StandsAt a.toNat) (hv : readValue r s = none) :
    hostRead a s = (Config.freeByte s.freeCtr, s.afterAny) := by
  rw [hostRead, hostReg_of_standsAt h, hv]
  rfl

section TableReads

variable {s : State} {a : Addr} {p : Fin 8} {d : Dir} {x : Byte}

/-- An entry of table pair 0 is read whether or not the tables are valid (R17, R36). -/
theorem hostRead_pair_zero (hidle : s.busy = false) (hat : (HostReg.table p d x).StandsAt a.toNat) (hp : p = 0) :
    hostRead a s = (x, s) := by
  subst hp
  exact hostRead_of_some hat (readValue_pair_zero hidle d x)

/-- With TVALID = 1 every entry is read (R36). -/
theorem hostRead_table_valid (hidle : s.busy = false) (hat : (HostReg.table p d x).StandsAt a.toNat)
    (hv : s.tvalid = true) : hostRead a s = (s.entry d p x, s) :=
  hostRead_of_some hat (by simp [readValue, hidle, hv])

/-- With TVALID = 0 a table that has storage reads as any value (R36). -/
theorem hostRead_table_invalid (hat : (HostReg.table p d x).StandsAt a.toNat) (hp : p ≠ 0) (hv : s.tvalid = false) :
    hostRead a s = (Config.freeByte s.freeCtr, s.afterAny) :=
  hostRead_of_none hat (by simp [readValue, hp, hv])

end TableReads

/-- Settles O51: the value of the register that stands at the address. -/
theorem idleHostRead : Obligations.IdleHostRead := by
  intro s a hidle
  refine ⟨fun h => ?cmd, fun h => ?arg, fun h => ?status, fun h => ?kptr, fun h => ?bwr,
    fun p hp => ⟨fun hw => ?written, fun hw => ?unwritten⟩, fun p hp => ⟨fun hv => ?valid, fun hv => ?invalid⟩,
    fun p d x hx => ?table, fun h => ?reserved⟩
  case cmd => exact hostRead_of_some (r := .cmd) (congrArg BitVec.toNat h) rfl
  case arg => exact hostRead_of_some (r := .arg) (congrArg BitVec.toNat h) rfl
  case status => exact hostRead_of_some (r := .status) (congrArg BitVec.toNat h) rfl
  case kptr => exact hostRead_of_some (r := .kptr) (congrArg BitVec.toNat h) (by simp [readValue, hidle])
  case bwr => exact hostRead_of_some (r := .bwr) (congrArg BitVec.toNat h) rfl
  case written => exact hostRead_of_some (r := .block p) hp (by simp only [readValue, hidle, hw]; rfl)
  case unwritten => exact hostRead_of_none (r := .block p) hp (by simp only [readValue, hidle, hw]; rfl)
  case valid => exact hostRead_of_some (r := .key p) hp (by simp [readValue, hidle, hv])
  case invalid => exact hostRead_of_none (r := .key p) hp (by simp [readValue, hv])
  case table =>
    have hat : (HostReg.table p d x).StandsAt a.toNat := hx.trans (tableAddr_eq p d x).symm
    exact ⟨hostRead_pair_zero hidle hat, fun _ => hostRead_table_valid hidle hat, hostRead_table_invalid hat⟩
  case reserved => exact hostRead_of_some (r := .reserved) h rfl

/-- With BUSY = 1 a read of KPTR, BLOCK, KEY or the table window gives any value (R35). -/
theorem hostRead_busy_any {s : State} (hbusy : s.busy = true) {a : Addr}
    (h : a.toNat = 0x0003 ∨ (0x0008 ≤ a.toNat ∧ a.toNat < 0x0018) ∨ (0x1000 ≤ a.toNat ∧ a.toNat < 0x2000)) :
    hostRead a s = (Config.freeByte s.freeCtr, s.afterAny) := by
  have hs := hostReg_standsAt a
  refine hostRead_of_none hs ?_
  generalize hostReg a = r at hs ⊢
  cases r with simp only [HostReg.StandsAt] at hs
  | kptr | block p | key p | table p d x => simp [readValue, hbusy]
  | cmd | arg | status | bwr | reserved => omega

/-- Settles O52: the registers whose reads do not look at BUSY, and the others. -/
theorem busyHostRead : Obligations.BusyHostRead := by
  intro s a hbusy
  refine ⟨fun h => ?cmd, fun h => ?arg, fun h => ?status, fun h => ?bwr, fun h => ?reserved, fun h => ?any⟩
  case cmd => exact hostRead_of_some (r := .cmd) (congrArg BitVec.toNat h) rfl
  case arg => exact hostRead_of_some (r := .arg) (congrArg BitVec.toNat h) rfl
  case status => exact hostRead_of_some (r := .status) (congrArg BitVec.toNat h) rfl
  case bwr => exact hostRead_of_some (r := .bwr) (congrArg BitVec.toNat h) rfl
  case reserved => exact hostRead_of_some (r := .reserved) h rfl
  case any =>
    have hkptr : a = 0x0003 → a.toNat = 0x0003 := congrArg BitVec.toNat
    exact hostRead_busy_any hbusy (h.imp_left hkptr)

/-- Settles O53: the window's three fields stand at the address, so reads are those of that entry. -/
theorem tableWindow : Obligations.TableWindow := by
  intro s a v hlo hhi
  have hat := (windowFields_addr hlo hhi).symm
  refine ⟨_, _, _, ?position, ?direction, ?index, ?address, fun hidle => hostRead_pair_zero hidle hat,
    fun hidle _ => hostRead_table_valid hidle hat, fun _ => hostRead_table_invalid hat,
    hostWrite_readOnly (.inr (by omega)) v s⟩
  case position => simp [Nat.shiftRight_eq_div_pow]
  case direction => simp
  case index => exact BitVec.eq_of_toNat_eq (by simp)
  case address => simpa only [mul_ite, Nat.mul_one, Nat.mul_zero] using hat.trans (tableAddr_eq _ _ _)

/-- What a read returns does not look at the counter of free values. -/
theorem readValue_setFreeCtr (r : HostReg) (s : State) (n : Nat) : readValue r (s.setFreeCtr n) = readValue r s := by
  cases r <;> rfl

/-- Settles O54: a read moves at most the counter of free values, and no definite value looks at that. -/
theorem readsAreIdempotent : Obligations.ReadsAreIdempotent := by
  intro s a b
  rcases hostRead_cases b s with ⟨w, _, hb⟩ | ⟨_, hb⟩ <;> rw [hb]
  · exact ⟨rfl, .inl rfl⟩
  · refine ⟨rfl, ?_⟩
    rcases hostRead_cases a s with ⟨v, hv, ha⟩ | ⟨hv, _⟩
    · left
      rw [hostRead_of_some (hostReg_standsAt a) ((readValue_setFreeCtr _ s _).trans hv), ha]
    · right
      exact hostRead_of_none (hostReg_standsAt a) ((readValue_setFreeCtr _ s _).trans hv)

end Sys2Proof.Machine
end

section
/-! PROOFS. The decoder of 30_encoding.md: a byte is the opcode of one command, or is illegal (R51, R52, R54). -/

namespace Sys2Proof.Machine

/-- Every opcode decodes to its command (R51). -/
@[simp] theorem decode_encode (i : Instr) : decode (encode i) = .command i := by
  cases i <;> rfl

/-- Opcodes end at 0x0D (R51). -/
theorem encode_lt (i : Instr) : (encode i).toNat < 0x0E := by
  cases i <;> decide

/-- Every byte below 0x0E is an opcode: the row of R51's table with that number. -/
theorem exists_encode_eq {b : Byte} (h : b.toNat < 0x0E) : ∃ i, encode i = b := by
  have row : ∀ n : Fin 14, (encode (opcodeMap.get n).2).toNat = n.val := by decide
  exact ⟨_, BitVec.eq_of_toNat_eq (row ⟨b.toNat, h⟩)⟩

/-- Every byte from 0x0E on matches no row and is illegal (R52). -/
theorem decode_of_ge {b : Byte} (h : 0x0E ≤ b.toNat) : decode b = .illegal b := by
  unfold decode
  split
  case h_15 => rfl
  all_goals omega

/-- A byte is the opcode of a command, or lies above all of them and is illegal (R52). -/
theorem decode_cases (b : Byte) : (∃ i, encode i = b) ∨ (0x0E ≤ b.toNat ∧ decode b = .illegal b) :=
  (lt_or_ge b.toNat 0x0E).imp exists_encode_eq fun h => ⟨h, decode_of_ge h⟩

/-- Decoding inverts encoding (R51). -/
theorem decode_eq_command_iff {b : Byte} {i : Instr} : decode b = .command i ↔ encode i = b := by
  constructor
  · rcases decode_cases b with ⟨j, rfl⟩ | ⟨_, hill⟩ <;> intro h
    · rw [Decoded.command.inj ((decode_encode j).symm.trans h)]
    · cases hill.symm.trans h
  · rintro rfl
    exact decode_encode i

/-- Illegal are the bytes above the last opcode (R54). -/
theorem decode_eq_illegal_iff {b o : Byte} : decode b = .illegal o ↔ o = b ∧ 0x0E ≤ b.toNat := by
  rcases decode_cases b with ⟨i, rfl⟩ | ⟨hb, hill⟩
  · simp [encode_lt i]
  · simp [hill, hb, eq_comm]

/-- The rows of R51's table are the commands with their opcodes. -/
theorem mem_opcodeMap_iff {b : Byte} {i : Instr} : (b, i) ∈ opcodeMap ↔ encode i = b := by
  rw [eq_comm (a := encode i)]
  cases i <;> simp [opcodeMap, encode]

/-- Settles O1: both say that the byte is the command's opcode. -/
theorem opcodeMapIsExact : Obligations.OpcodeMapIsExact := fun _ _ =>
  decode_eq_command_iff.trans mem_opcodeMap_iff.symm

/-- Settles O2: eight words are opcodes, two lie above the last opcode. -/
theorem sampleOpcodesDecode : Obligations.SampleOpcodesDecode :=
  ⟨decode_encode .nop, decode_encode .errClear, decode_encode .keyAbsorb, decode_encode .tblGen,
    decode_encode .encrypt, decode_encode .encRound, decode_encode .decrypt, decode_encode .rotr,
    decode_eq_illegal_iff.mpr ⟨rfl, by decide⟩, decode_eq_illegal_iff.mpr ⟨rfl, by decide⟩⟩

/-- Settles O3: the two characterisations of what a byte decodes to. -/
theorem encodeAndDecodeAgree : Obligations.EncodeAndDecodeAgree :=
  ⟨fun i _ => decode_encode i, fun _ _ => decode_eq_command_iff.mp, fun _ _ => decode_eq_illegal_iff⟩

end Sys2Proof.Machine
end

section
/-! PROOFS. Whose turn it is (R43), and the engine's turn on a command and on an illegal opcode (R52, R176). -/

namespace Sys2Proof.Machine

/-! ## Whose turn it is -/

theorem nextTurn_eq_engine_iff {s : State} : nextTurn s = .engine ↔ s.engineNext := by
  unfold nextTurn State.engineNext
  cases s.sched with
  | nil => simp
  | cons t rest => simp

theorem nextTurn_eq_host_iff {s : State} : nextTurn s = .host ↔ s.hostNext := by
  unfold nextTurn State.hostNext
  cases s.sched with
  | nil => simp
  | cons t rest => simp

theorem step_of_engineNext {s : State} (h : s.engineNext) : step s = engineTurn s.afterTurn := by
  rw [step, nextTurn_eq_engine_iff.mpr h]
  rfl

theorem step_of_hostNext {s : State} (h : s.hostNext) : step s = hostTurn s.afterTurn := by
  rw [step, nextTurn_eq_host_iff.mpr h]
  rfl

/-! ## The engine's turn -/

/-- The engine's turn on a command (R52, R176). -/
theorem engineTurn_of_command {s : State} {i : Instr} (hbusy : s.busy = true) (h : decode s.lcmd = .command i) :
    engineTurn s = finishCommand (exec i s) := by
  simp [engineTurn, hbusy, h]

/-- The engine's turn on an illegal opcode (R52). -/
theorem engineTurn_of_illegal {s : State} {b : Byte} (hbusy : s.busy = true) (h : decode s.lcmd = .illegal b) :
    engineTurn s = .next { s.withError 1 with busy := false } := by
  have hraise : raiseError .illegal s = s.withError 1 := raiseError_eq .illegal s
  simp only [engineTurn, hbusy, h, illegalCommand, hraise, finishCommand_next, if_true]
  rfl

/-- Settles O5: the engine's turn on either kind of latch, and the write to CMD, which does not decode. -/
theorem illegalOpcodeRaisesIllegal : Obligations.IllegalOpcodeRaisesIllegal := by
  refine ⟨fun s hturn hbusy => ⟨fun b i hrow hlatch => ?row, fun hill => ?illegal⟩, fun s v hidle _ => ?write⟩
  case row =>
    rw [step_of_engineNext hturn]
    exact engineTurn_of_command hbusy (decode_eq_command_iff.mpr ((mem_opcodeMap_iff.mp hrow).trans hlatch.symm))
  case illegal =>
    rw [step_of_engineNext hturn]
    exact engineTurn_of_illegal hbusy (decode_eq_illegal_iff.mpr ⟨rfl, hill⟩)
  case write => exact hostWrite_of_idle (a := 0x0000) (r := .cmd) hidle rfl v

end Sys2Proof.Machine
end

section
/-! PROOFS. ARG is an operand of KEY_ABSORB alone (R53): what each shared operation makes of a change of ARG. -/

namespace Sys2Proof.Machine

/-- The checks do not look at ARG (R154). -/
theorem firstError_setArg (n : Needs) (s : State) (v : Byte) : firstError n (s.setArg v) = firstError n s := rfl

theorem raiseError_setArg (c : ErrCode) (s : State) (v : Byte) :
    raiseError c (s.setArg v) = (raiseError c s).setArg v := by
  rw [raiseError_eq, raiseError_eq]
  rfl

/-- A command behind its checks commutes with a change of ARG if its act does. -/
theorem runChecked_setArg {act : State → State} {v : Byte} (hact : ∀ s, act (s.setArg v) = (act s).setArg v)
    (n : Needs) (s : State) : runChecked n act (s.setArg v) = (runChecked n act s).setArg v := by
  rw [runChecked, runChecked, firstError_setArg]
  cases firstError n s with
  | none => exact hact s
  | some c => exact raiseError_setArg c s v

/-- TBL_GEN draws and stores whatever ARG is (R80, R86). -/
theorem generate_setArg (s : State) (v : Byte) : generate (s.setArg v) = (generate s).setArg v := by
  rw [generate, generate, State.setArg_tables, State.setArg_rng]
  rcases genTables generatedPositions s.tables s.rng with ⟨_ | m, r⟩
  · exact raiseError_setArg .rng (spoilTables (s.setRng r)) v
  · rfl

/-- Settles O44: every command but KEY_ABSORB commutes with a change of ARG; the new block of a block command is computed
from the block, the key and the tables. -/
theorem onlyKeyAbsorbReadsArg : Obligations.OnlyKeyAbsorbReadsArg := by
  intro i s v hi
  cases i with
  | keyAbsorb => exact absurd rfl hi
  | nop | keyClear | errClear => exact ⟨_, rfl, rfl⟩
  | tblGen => exact ⟨_, rfl, congrArg _ (generate_setArg s v)⟩
  | encrypt | decrypt | keymix | sub | invsub | rotl | rotr | encRound | decRound =>
    exact ⟨_, rfl, congrArg _ (runChecked_setArg (fun _ => rfl) _ s)⟩

end Sys2Proof.Machine
end

section
/-! PROOFS. The host script of 30_encoding.md: each statement of R56 in the host's turn, and what the pseudo-instructions
of R57 expand to. -/

namespace Sys2Proof.Machine

/-! ## The parts of a statement -/

/-- The turn of a host that stands at a statement performs it (R56). -/
theorem step_at_stmt {s : State} {st : HostStmt} (hturn : s.hostNext) (hlive : s.host.failed = false)
    (hst : s.host.script[s.host.pos]? = some st) : step s = hostStmt st s.afterTurn := by
  rw [step_of_hostNext hturn, hostTurn]
  simp [State.afterTurn, hlive, hst]

/-- A read leaves the host agent alone: recording it is the script's part (R42, R56). -/
theorem hostRead_host (a : Addr) (s : State) : (hostRead a s).2.host = s.host := by
  rcases hostRead_cases a s with ⟨v, _, h⟩ | ⟨_, h⟩ <;> rw [h]
  rfl

/-- A recorded read is the read, and its value in the record (R56). -/
theorem recordedRead_eq (a : Addr) (s : State) :
    recordedRead a s = ((hostRead a s).1, (hostRead a s).2.withRead a (hostRead a s).1) := rfl

@[simp] theorem withRead_pos (s : State) (a : Addr) (v : Byte) : (s.withRead a v).host.pos = s.host.pos := rfl
@[simp] theorem withRead_script (s : State) (a : Addr) (v : Byte) : (s.withRead a v).host.script = s.host.script := rfl

/-- The next statement is one on from where the host stood before its access. -/
theorem hostAdvance_of_pos_eq {s u : State} (h : u.host.pos = s.host.pos) :
    u.hostAdvance = u.hostAt (s.host.pos + 1) := by
  rw [← h]
  rfl

/-- The first place of a label, counting from n (log entry 5). -/
theorem labelFrom_of_first {l k : Nat} {script : List HostStmt} (n : Nat) (hk : script[k]? = some (.label l))
    (hfirst : ∀ j < k, script[j]? ≠ some (.label l)) : labelFrom l n script = some (n + k) := by
  induction script generalizing n k with
  | nil => simp at hk
  | cons st rest ih =>
    cases k with
    | zero => simp_all [labelFrom]
    | succ k =>
      have hst : st ≠ .label l := by simpa using hfirst 0 (Nat.succ_pos k)
      have hrest := ih (n + 1) hk fun j hj => hfirst (j + 1) (Nat.succ_lt_succ hj)
      rw [labelFrom, if_neg hst, hrest, Nat.add_right_comm, Nat.add_assoc]

theorem branchTo_false (l : Nat) (s : State) : branchTo l false s = .next s.hostAdvance := rfl

/-- A taken branch goes to the first place of its label (R56, log entry 5). -/
theorem branchTo_true {l k : Nat} {s : State} (hk : s.host.script[k]? = some (.label l))
    (hfirst : ∀ j < k, s.host.script[j]? ≠ some (.label l)) : branchTo l true s = .next (s.hostAt k) := by
  simp only [branchTo, labelFrom_of_first 0 hk hfirst, Nat.zero_add, if_true]
  rfl

/-! ## The statements -/

theorem hostStmt_wr (a : Addr) (v : Byte) (s : State) :
    hostStmt (.wr a v) s = .next ((hostWrite a v s).hostAt (s.host.pos + 1)) := by
  obtain ⟨_, _, _, _, _, hhost, _⟩ := hostWrite_frame a v s
  exact congrArg _ (hostAdvance_of_pos_eq (congrArg HostAgent.pos hhost))

/-- `cmd` is the write of its opcode to CMD. -/
theorem hostStmt_cmd (i : Instr) (s : State) : hostStmt (.cmd i) s = hostStmt (.wr 0x0000 (encode i)) s := rfl

section Reads

variable {s u : State} {a : Addr} {v : Byte} {l : Nat} {mask : Byte} (hread : hostRead a s = (v, u))

include hread

theorem host_of_hostRead : u.host = s.host := by
  rw [← hostRead_host a s, hread]

theorem hostAdvance_withRead : (u.withRead a v).hostAdvance = (u.withRead a v).hostAt (s.host.pos + 1) :=
  hostAdvance_of_pos_eq ((withRead_pos u a v).trans (congrArg HostAgent.pos (host_of_hostRead hread)))

theorem hostStmt_rd : hostStmt (.rd a) s = .next ((u.withRead a v).hostAt (s.host.pos + 1)) := by
  rw [hostStmt, recordedRead_eq, hread, ← hostAdvance_withRead hread]

theorem hostStmt_bnz : hostStmt (.bnz l a mask) s = branchTo l (decide (v &&& mask ≠ 0)) (u.withRead a v) := by
  rw [hostStmt, recordedRead_eq, hread]

theorem hostStmt_bnz_clear (hclear : v &&& mask = 0) :
    hostStmt (.bnz l a mask) s = .next ((u.withRead a v).hostAt (s.host.pos + 1)) := by
  rw [hostStmt_bnz hread, decide_eq_false (not_not_intro hclear), branchTo_false, hostAdvance_withRead hread]

theorem hostStmt_bnz_set {k : Nat} (hset : v &&& mask ≠ 0) (hk : s.host.script[k]? = some (.label l))
    (hfirst : ∀ j < k, s.host.script[j]? ≠ some (.label l)) :
    hostStmt (.bnz l a mask) s = .next ((u.withRead a v).hostAt k) := by
  have hscript := (withRead_script u a v).trans (congrArg HostAgent.script (host_of_hostRead hread))
  rw [← hscript] at hk hfirst
  rw [hostStmt_bnz hread, decide_eq_true hset, branchTo_true hk hfirst]

end Reads

/-- Settles O55: the host's turn performs the statement at which it stands. -/
theorem hostScriptStatements : Obligations.HostScriptStatements := by
  intro s st hturn hlive hst
  rw [step_at_stmt hturn hlive hst]
  refine ⟨fun a v h => ?wr, fun i h => ?cmd, fun l h => ?label, fun a h => ?rd, fun l a mask h => ?bnz⟩ <;> subst h
  case wr => exact hostStmt_wr a v s.afterTurn
  case cmd => exact (hostStmt_cmd i _).trans (hostStmt_wr 0x0000 (encode i) s.afterTurn)
  case label => rfl
  case rd => exact ⟨_, _, rfl, hostStmt_rd rfl⟩
  case bnz => exact ⟨_, _, rfl, hostStmt_bnz_clear rfl, fun k => hostStmt_bnz_set rfl⟩

/-! ## The check and the expansions -/

/-- STATUS is read as it is, whatever BUSY is (R34, R35). -/
theorem hostRead_status (s : State) : hostRead 0x0002 s = (s.status, s) :=
  hostRead_of_some (a := 0x0002) (r := .status) rfl rfl

/-- ERR stands in STATUS from bit 4 on (R23). -/
theorem getLsbD_status_err (s : State) (i : Nat) : s.status.getLsbD (4 + i) = s.err.getLsbD i := by
  have hfield {n : Nat} (hn : n < 4) : 4 + i ≠ n := by omega
  simp [getLsbD_status, hfield]

/-- Bits 6:4 of STATUS, which `check` looks at, are ERR (R23, R57). -/
theorem status_and_errMask (s : State) : s.status &&& 0x70 = 0 ↔ s.err = 0 := by
  have mask : ∀ i < 8, (0x70 : Byte).getLsbD i = decide (4 ≤ i ∧ i < 7) := by decide
  constructor
  · intro h
    refine BitVec.eq_of_getLsbD_eq fun i hi => ?_
    have hmask : (0x70 : Byte).getLsbD (4 + i) = true := (mask _ (by omega)).trans (decide_eq_true (by omega))
    have hbit := congrArg (·.getLsbD (4 + i)) h
    rw [BitVec.getLsbD_and, hmask, getLsbD_status_err] at hbit
    simpa using hbit
  · intro h
    refine BitVec.eq_of_getLsbD_eq fun i hi => ?_
    rw [BitVec.getLsbD_and, mask i hi]
    by_cases hfield : 4 ≤ i ∧ i < 7
    · obtain ⟨j, rfl⟩ := Nat.exists_eq_add_of_le hfield.1
      simp [getLsbD_status_err, h]
    · simp [hfield]

/-- Settles O56: the expansions are those of R57's table as they stand; a check is the read of STATUS, and fails by its
ERR bits. -/
theorem pseudoInstructionExpansions : Obligations.PseudoInstructionExpansions := by
  refine ⟨fun _ => rfl, fun _ _ => rfl, fun _ => rfl, fun _ _ _ => rfl, fun _ _ => rfl, fun _ _ => rfl, fun _ => rfl,
    fun _ => rfl, fun s hturn hlive hst => ?_⟩
  have hread := hostRead_status s.afterTurn
  rw [step_at_stmt hturn hlive hst, hostStmt, recordedRead_eq, hread]
  exact ⟨_, rfl, decide_eq_decide.mpr (status_and_errMask s).not, rfl, rfl, rfl⟩

end Sys2Proof.Machine
end

section
/-! PROOFS. The expansion of a script with pseudo-instructions (R57): its labels are those that the script writes itself
and one fresh number after another (log entry 13), and every branch has its label. -/

namespace Sys2Proof.Machine

/-! ## Labels and branches of a script -/

theorem scriptLabels_append (xs ys : List HostStmt) :
    scriptLabels (xs ++ ys) = scriptLabels xs ++ scriptLabels ys := by
  induction xs with
  | nil => rfl
  | cons st rest ih => cases st <;> simp [scriptLabels, ih]

theorem mem_scriptLabels {l : Nat} {script : List HostStmt} : l ∈ scriptLabels script ↔ .label l ∈ script := by
  induction script with
  | nil => simp [scriptLabels]
  | cons st rest ih => cases st <;> simp [scriptLabels, ih]

/-- A branch that has its label among some labels has it among more. -/
theorem targetKnown_mono {labels labels' : List Nat} (h : labels ⊆ labels') {st : HostStmt}
    (hst : targetKnown labels st = true) : targetKnown labels' st = true := by
  cases st with
  | bnz l a mask => exact List.contains_iff_mem.mpr (h (List.contains_iff_mem.mp hst))
  | wr | rd | cmd | label | check => rfl

theorem scriptWellFormed_iff {script : List HostStmt} :
    scriptWellFormed script = true ↔
      (scriptLabels script).Nodup ∧ ∀ st ∈ script, targetKnown (scriptLabels script) st = true := by
  simp [scriptWellFormed]

/-- The branches of a script have their labels in it, but perhaps for statements taken from `own`. -/
def BranchesInside (own script : List HostStmt) : Prop :=
  ∀ st ∈ script, st ∈ own ∨ targetKnown (scriptLabels script) st = true

/-- Scripts one after the other only add labels. -/
theorem BranchesInside.append {own own' xs ys : List HostStmt} (hx : BranchesInside own xs)
    (hy : BranchesInside own' ys) : BranchesInside (own ++ own') (xs ++ ys) := by
  intro st hst
  rw [scriptLabels_append]
  rcases List.mem_append.mp hst with hst | hst
  · exact (hx st hst).imp (List.mem_append_left _) (targetKnown_mono (List.subset_append_left _ _))
  · exact (hy st hst).imp (List.mem_append_right _) (targetKnown_mono (List.subset_append_right _ _))

/-! ## One line -/

/-- The statement that a line writes itself. -/
def Pseudo.ownStmt : Pseudo → Option HostStmt
  | .stmt st => some st
  | _ => none

theorem scriptLabels_absorbStmts (bytes : List Byte) (n : Nat) :
    scriptLabels (absorbStmts bytes n) = List.range' n bytes.length := by
  induction bytes generalizing n with
  | nil => rfl
  | cons c cs ih =>
    rw [List.length_cons, List.range'_succ, ← ih]
    rfl

/-- A line makes the labels that it writes itself, and the fresh numbers that it uses up, each once. -/
theorem expandOne_labels (ps : Pseudo) (n : Nat) :
    ∃ m, (expandOne ps n).2 = n + m ∧
      scriptLabels (expandOne ps n).1 = scriptLabels ps.ownStmt.toList ++ List.range' n m := by
  cases ps with
  | stmt st => exact ⟨0, rfl, (List.append_nil _).symm⟩
  | wait | doCmd i => exact ⟨1, rfl, rfl⟩
  | absorb bytes => exact ⟨bytes.length, rfl, scriptLabels_absorbStmts bytes n⟩
  | derive bytes =>
    refine ⟨bytes.length + 1, by simp only [expandOne]; omega, ?_⟩
    rw [List.range'_succ, ← scriptLabels_absorbStmts]
    rfl
  | loadblk b | readblk | readkey => exact ⟨0, rfl, rfl⟩

/-- `do` polls at its own label. -/
theorem branchesInside_doStmts (i : Instr) (n : Nat) : BranchesInside [] (doStmts i n) := by
  simp [BranchesInside, doStmts, waitStmts, scriptLabels, targetKnown]

theorem branchesInside_absorbStmts (bytes : List Byte) (n : Nat) : BranchesInside [] (absorbStmts bytes n) := by
  induction bytes generalizing n with
  | nil => exact fun st hst => absurd hst List.not_mem_nil
  | cons c cs ih =>
    have hwrite : BranchesInside [] [.wr 0x0001 c] := by simp [BranchesInside, targetKnown]
    exact hwrite.append ((branchesInside_doStmts .keyAbsorb n).append (ih (n + 1)))

/-- A line's branches, but those that it writes itself, have their labels in its expansion. -/
theorem expandOne_branches (ps : Pseudo) (n : Nat) : BranchesInside ps.ownStmt.toList (expandOne ps n).1 := by
  cases ps with
  | stmt st => exact fun _ => .inl
  | wait => simp [BranchesInside, expandOne, waitStmts, scriptLabels, targetKnown]
  | doCmd i => exact branchesInside_doStmts i n
  | absorb bytes => exact branchesInside_absorbStmts bytes n
  | derive bytes => exact (branchesInside_doStmts .keyClear n).append (branchesInside_absorbStmts bytes (n + 1))
  | loadblk b => simp [BranchesInside, expandOne, loadblkStmts, targetKnown]
  | readblk => simp [BranchesInside, expandOne, readblkStmts, targetKnown]
  | readkey => simp [BranchesInside, expandOne, readkeyStmts, targetKnown]

/-! ## The whole script -/

/-- The statements that a script writes itself. -/
def ownStmts (lines : List Pseudo) : List HostStmt :=
  lines.filterMap Pseudo.ownStmt

theorem ownStmts_cons (ps : Pseudo) (rest : List Pseudo) :
    ownStmts (ps :: rest) = ps.ownStmt.toList ++ ownStmts rest := by
  cases ps <;> rfl

/-- An expansion has the labels that the script writes itself and a run of numbers from n on, each once. -/
theorem expandFrom_labels (lines : List Pseudo) (n : Nat) :
    ∃ k, (scriptLabels (expandFrom lines n)).Perm (scriptLabels (ownStmts lines) ++ List.range' n k) := by
  induction lines generalizing n with
  | nil => exact ⟨0, .nil⟩
  | cons ps rest ih =>
    obtain ⟨m, hnext, hlabels⟩ := expandOne_labels ps n
    obtain ⟨k, hrest⟩ := ih (n + m)
    refine ⟨m + k, ?_⟩
    rw [expandFrom, hnext, scriptLabels_append, hlabels, ownStmts_cons, scriptLabels_append, List.append_assoc,
      List.append_assoc]
    refine List.Perm.append_left _ ?_
    rw [← List.range'_append_1]
    refine (hrest.append_left _).trans ?_
    simpa only [List.append_assoc] using List.perm_append_comm.append_right (List.range' (n + m) k)

theorem expandFrom_branches (lines : List Pseudo) (n : Nat) :
    BranchesInside (ownStmts lines) (expandFrom lines n) := by
  induction lines generalizing n with
  | nil => exact fun st hst => absurd hst List.not_mem_nil
  | cons ps rest ih =>
    rw [ownStmts_cons]
    exact (expandOne_branches ps n).append (ih _)

theorem freshLabel_le_cons (ps : Pseudo) (rest : List Pseudo) : freshLabel rest ≤ freshLabel (ps :: rest) := by
  cases ps with
  | stmt st =>
    cases st with
    | label | bnz => exact le_max_right _ _
    | wr | rd | cmd | check => exact le_rfl
  | _ => exact le_rfl

/-- Every label that a script writes itself is below the first fresh number (log entry 13). -/
theorem lt_freshLabel {lines : List Pseudo} {l : Nat} (h : HostStmt.label l ∈ ownStmts lines) :
    l < freshLabel lines := by
  induction lines with
  | nil => exact absurd h List.not_mem_nil
  | cons ps rest ih =>
    rw [ownStmts_cons, List.mem_append] at h
    rcases h with h | h
    · cases ps with
      | stmt st =>
        obtain rfl := List.mem_singleton.mp h
        exact Nat.lt_of_succ_le (le_max_left _ _)
      | _ => exact absurd h List.not_mem_nil
    · exact (ih h).trans_le (freshLabel_le_cons ps rest)

/-- Settles O57: the fresh numbers lie above the script's own labels, so no label stands twice; and the script's own
branches find its own labels. -/
theorem expansionsAreWellFormed : Obligations.ExpansionsAreWellFormed := by
  intro lines hown
  have hown : scriptWellFormed (ownStmts lines) = true := hown
  obtain ⟨hnodup, htargets⟩ := scriptWellFormed_iff.mp hown
  obtain ⟨k, hlabels⟩ := expandFrom_labels lines (freshLabel lines)
  have hfresh : (scriptLabels (ownStmts lines)).Disjoint (List.range' (freshLabel lines) k) := by
    intro l hl hr
    have := lt_freshLabel (mem_scriptLabels.mp hl)
    have := (List.mem_range'_1.mp hr).1
    omega
  refine scriptWellFormed_iff.mpr ⟨hlabels.nodup_iff.mpr (hnodup.append List.nodup_range' hfresh), fun st hst => ?_⟩
  rcases expandFrom_branches lines _ st hst with hst | hst
  · exact targetKnown_mono (fun l hl => hlabels.mem_iff.mpr (List.mem_append_left _ hl)) (htargets st hst)
  · exact hst

end Sys2Proof.Machine
end

section
/-! PROOFS. The key deriver of 40_key_deriver.md: KEY_CLEAR starts a derivation, and each KEY_ABSORB carries the folded
key of the passphrase so far (R27) to that of one byte more. -/

namespace Sys2Proof.Machine

/-! ## The two commands -/

/-- Settles O15: R70's pseudocode, byte by byte. -/
theorem keyClearStartsDerivation : Obligations.KeyClearStartsDerivation :=
  ⟨decode_encode .keyClear, fun s => ⟨clearKey s, rfl, rfl, byteAt_bytes8 _⟩⟩

/-- NOKEY is the one check of KEY_ABSORB (R71). -/
theorem exec_keyAbsorb_of_kvalid_false {s : State} (h : s.kvalid = false) :
    exec .keyAbsorb s = .next (s.withError 2) := by
  have hcheck : firstError { key := true, tables := false, block := false } s = some .nokey := by simp [firstError, h]
  have hrun : runChecked { key := true, tables := false, block := false } absorbByte s = raiseError .nokey s := by
    rw [runChecked, hcheck]
  exact congrArg _ (hrun.trans (raiseError_eq .nokey s))

theorem exec_keyAbsorb_of_kvalid {s : State} (h : s.kvalid = true) : exec .keyAbsorb s = .next (absorbByte s) :=
  congrArg _ (runChecked_of_pass ((firstError_eq_none_iff _ s).mpr (by simp [h])))

theorem byteAt_absorbByte (s : State) (p : Fin 8) :
    byteAt (absorbByte s).key p = if p.val = s.kptr.toNat then byteAt s.key p ^^^ s.arg else byteAt s.key p := by
  rw [absorbByte, State.setKey_key, byteAt_setByte]
  by_cases hp : p = keyIndex s.kptr
  · subst hp
    simp [keyIndex, State.passByte]
  · have hval : p.val ≠ s.kptr.toNat := fun h => hp (Fin.ext h)
    simp [hp, hval]

theorem absorbByte_kptr (s : State) : (absorbByte s).kptr.toNat = (s.kptr.toNat + 1) % 8 :=
  BitVec.toNat_add s.kptr 1

/-- Settles O16: the failed check, and the fold with KPTR's own arithmetic. -/
theorem keyAbsorbFoldsArg : Obligations.KeyAbsorbFoldsArg :=
  ⟨decode_encode .keyAbsorb, fun s => ⟨exec_keyAbsorb_of_kvalid_false, fun hvalid =>
    ⟨absorbByte s, exec_keyAbsorb_of_kvalid hvalid, rfl, absorbByte_kptr s, byteAt_absorbByte s⟩⟩⟩

/-! ## The fold of a passphrase -/

@[simp] theorem foldedByte_nil (p : Fin 8) : foldedByte [] p = 0x00 := rfl

/-- One byte more is folded in at its own index mod 8, and nowhere else (R72). -/
theorem foldedByte_concat (cs : List Byte) (c : Byte) (p : Fin 8) :
    foldedByte (cs ++ [c]) p = if p.val = cs.length % 8 then foldedByte cs p ^^^ c else foldedByte cs p := by
  have hbefore : ((List.range cs.length).filter (fun i => decide (i % 8 = p.val))).foldl
      (fun acc i => acc ^^^ (cs ++ [c]).getD i 0) 0 = foldedByte cs p := by
    refine List.foldl_ext _ _ _ fun acc i hi => ?_
    have hlt : i < cs.length := List.mem_range.mp (List.mem_of_mem_filter hi)
    rw [List.getD_append _ _ _ _ hlt]
  rw [foldedByte, List.length_append, List.length_singleton, List.range_succ, List.filter_append, List.foldl_append,
    hbefore]
  by_cases h : p.val = cs.length % 8
  · simp [h]
  · simp [h, Ne.symm h]

/-! ## The derivation -/

/-- KEY and KPTR are those that the passphrase derives (R27). -/
structure HoldsKeyOf (passphrase : List Byte) (s : State) : Prop where
  kvalid : s.kvalid = true
  key : ∀ p, byteAt s.key p = foldedByte passphrase p
  kptr : s.kptr.toNat = passphrase.length % 8

theorem clearKey_holdsKeyOf_nil (s : State) : HoldsKeyOf [] (clearKey s) :=
  ⟨rfl, byteAt_bytes8 _, rfl⟩

theorem HoldsKeyOf.absorbByte {cs : List Byte} {s : State} (h : HoldsKeyOf cs s) :
    HoldsKeyOf (cs ++ [s.arg]) (absorbByte s) where
  kvalid := h.kvalid
  key p := by rw [byteAt_absorbByte, foldedByte_concat, h.key, h.kptr]
  kptr := by rw [absorbByte_kptr, h.kptr, List.length_append, List.length_singleton, Nat.mod_add_mod]

theorem HoldsKeyOf.setArg {cs : List Byte} {s : State} (h : HoldsKeyOf cs s) (c : Byte) :
    HoldsKeyOf cs (s.setArg c) :=
  ⟨h.kvalid, h.key, h.kptr⟩

theorem absorbAll_cons {s : State} (h : s.kvalid = true) (c : Byte) (cs : List Byte) :
    absorbAll (c :: cs) s = absorbAll cs (absorbByte (s.setArg c)) := by
  have hexec : exec .keyAbsorb { s with arg := c } = .next (absorbByte (s.setArg c)) := exec_keyAbsorb_of_kvalid h
  rw [absorbAll, hexec]

/-- Absorbing further bytes derives the longer passphrase, and writes KEY, KPTR and ARG alone. -/
theorem HoldsKeyOf.absorbAll {cs : List Byte} {s : State} (h : HoldsKeyOf cs s) (rest : List Byte) :
    ∃ t, absorbAll rest s = .next t ∧ HoldsKeyOf (cs ++ rest) t ∧
      t = { s with key := t.key, kptr := t.kptr, arg := rest.getLast?.getD s.arg } := by
  induction rest generalizing cs s with
  | nil => exact ⟨s, rfl, by rwa [List.append_nil], rfl⟩
  | cons c rest ih =>
    obtain ⟨t, hrun, hkey, hframe⟩ := ih (h.setArg c).absorbByte
    refine ⟨t, (absorbAll_cons h.kvalid c rest).trans hrun, ?_, ?_⟩
    · rwa [List.append_assoc] at hkey
    · rw [List.getLast?_cons]
      exact hframe

/-- A derivation ends with the folded key (R72). -/
theorem deriveKey_holdsKeyOf (passphrase : List Byte) (s : State) :
    ∃ t, deriveKey passphrase s = .next t ∧ HoldsKeyOf passphrase t ∧
      t = { s with key := t.key, kptr := t.kptr, kvalid := true, arg := passphrase.getLast?.getD s.arg } :=
  (clearKey_holdsKeyOf_nil s).absorbAll passphrase

/-- Settles O17: the derived key is the folded key, by induction over the bytes still to absorb. -/
theorem derivationFoldsPassphrase : Obligations.DerivationFoldsPassphrase := by
  intro passphrase s
  obtain ⟨t, hrun, hkey, hframe⟩ := deriveKey_holdsKeyOf passphrase s
  exact ⟨t, hrun, hframe, hkey.key, hkey.kptr⟩

/-- Two passphrases' keys agree exactly when their folds do (R73). -/
theorem HoldsKeyOf.key_eq_iff {cs ds : List Byte} {s t : State} (hs : HoldsKeyOf cs s) (ht : HoldsKeyOf ds t) :
    s.key = t.key ↔ ∀ p, foldedByte cs p = foldedByte ds p := by
  constructor
  · intro h p
    rw [← hs.key, ← ht.key, h]
  · intro h
    exact bytes8_ext fun p => by rw [hs.key, ht.key, h]

/-- Settles O18: each key is its passphrase's fold, byte for byte. -/
theorem keysCollideExactlyWhenFoldsAgree : Obligations.KeysCollideExactlyWhenFoldsAgree := by
  refine ⟨fun p₁ p₂ s₁ s₂ => ?_, fun p => ⟨?_, foldedByte_nil p⟩⟩
  · obtain ⟨t₁, hrun₁, hkey₁, _⟩ := deriveKey_holdsKeyOf p₁ s₁
    obtain ⟨t₂, hrun₂, hkey₂, _⟩ := deriveKey_holdsKeyOf p₂ s₂
    exact ⟨t₁, t₂, hrun₁, hrun₂, hkey₁.key_eq_iff hkey₂⟩
  · exact (by decide : ∀ p, foldedByte (List.replicate 16 0x41) p = 0x00) p

end Sys2Proof.Machine
end

section
/-! PROOFS. The shuffle of 41_table_factory.md, draw by draw: the source after n draws answers draw number n (R83, R85),
and each draw in range composes the working array with one transposition (R82). -/

namespace Sys2Proof.Machine

/-! ## The draws -/

/-- The random source once n draws have been made. -/
def RandomSource.afterDraws (r : RandomSource) (n : Nat) : RandomSource :=
  ⟨r.answers.drop n, r.asked + n⟩

/-- The next answer is that of draw number n, and one more draw has been made. -/
theorem answer_afterDraws (r : RandomSource) (n : Nat) :
    answer (r.afterDraws n) (drawBound n) = (drawAnswer r n, r.afterDraws (n + 1)) := by
  by_cases hn : n < r.answers.length
  · have hdrop : r.answers.drop n = r.answers[n] :: r.answers.drop (n + 1) := List.drop_eq_getElem_cons hn
    simp only [RandomSource.afterDraws, answer, hdrop, drawAnswer, List.getD_eq_getElem _ _ hn]
    rfl
  · have hdrop : ∀ {k}, n ≤ k → r.answers.drop k = [] := fun hk => List.drop_eq_nil_of_le (by omega)
    simp only [RandomSource.afterDraws, answer, hdrop (Nat.le_refl n), hdrop (Nat.le_succ n), drawAnswer,
      List.getD_eq_default _ _ (Nat.le_of_not_lt hn)]
    rfl

/-- Draw number 255 c + k is for table c + 1, with the bound 255 - k (R85). -/
theorem drawBound_table (c : Nat) {k : Nat} (hk : k < 255) : drawBound (255 * c + k) = 255 - k := by
  simp only [drawBound]
  omega

/-- A bound is a byte. -/
theorem toNat_ofNat_bound (k : Nat) : (BitVec.ofNat 8 (255 - k)).toNat = 255 - k := by
  rw [BitVec.toNat_ofNat, Nat.mod_eq_of_lt (by omega)]

theorem DrawsInRange.mono {r : RandomSource} {m n : Nat} (h : DrawsInRange r n) (hmn : m ≤ n) : DrawsInRange r m :=
  fun k hk => h k (hk.trans_le hmn)

/-! ## The table of a permutation -/

/-- The 256 values of a permutation of the bytes in order of their index, as a table holds them. -/
def tableOf (σ : Equiv.Perm Byte) : List Byte :=
  (List.range 256).map fun x => σ (BitVec.ofNat 8 x)

@[simp] theorem tableOf_length (σ : Equiv.Perm Byte) : (tableOf σ).length = 256 := by
  rw [tableOf, List.length_map, List.length_range]

@[simp] theorem tableOf_getElem (σ : Equiv.Perm Byte) (k : Nat) (hk : k < (tableOf σ).length) :
    (tableOf σ)[k] = σ (BitVec.ofNat 8 k) := by
  simp [tableOf]

theorem tableOf_lookup (σ : Equiv.Perm Byte) (x : Byte) (hx : x.toNat < (tableOf σ).length) :
    (tableOf σ)[x.toNat] = σ x := by
  rw [tableOf_getElem, BitVec.ofNat_toNat, BitVec.setWidth_eq]

theorem identityTable_eq_tableOf : identityTable = tableOf 1 := rfl

/-- Swapping two entries composes with the transposition of their indices on the right. -/
theorem swapEntries_tableOf (σ : Equiv.Perm Byte) (i j : Byte) :
    swapEntries (tableOf σ) i.toNat j.toNat = tableOf (σ * Equiv.swap i j) := by
  have hlen : ∀ b : Byte, b.toNat < (tableOf σ).length := fun b => by rw [tableOf_length]; exact b.isLt
  refine List.ext_getElem (by rw [swapEntries_length, tableOf_length, tableOf_length]) fun k hk _ => ?_
  have hk256 : k < 256 := hk.trans_eq (by rw [swapEntries_length, tableOf_length])
  have hindex : ∀ b : Byte, k = b.toNat ↔ BitVec.ofNat 8 k = b := fun b => by
    rw [← BitVec.toNat_inj, BitVec.toNat_ofNat, Nat.mod_eq_of_lt hk256]
  rw [swapEntries_getElem _ (hlen i) (hlen j), tableOf_lookup, tableOf_lookup, tableOf_getElem, tableOf_getElem,
    Equiv.Perm.mul_apply, Equiv.swap_comm, Equiv.swap_apply_def, apply_ite σ, apply_ite σ]
  simp only [hindex]

theorem tableOf_isTable (σ : Equiv.Perm Byte) : IsTable (tableOf σ) where
  length := tableOf_length σ
  nodup := by
    have hmap : tableOf σ = identityTable.map σ := List.map_map.symm
    rw [hmap]
    exact identityTable_isTable.nodup.map σ.injective

/-- The inversion of R84 gives the table of the inverse permutation. -/
theorem invertTable_tableOf (σ : Equiv.Perm Byte) : invertTable (tableOf σ) = tableOf σ.symm := by
  refine List.ext_getElem (by rw [invertTable_length, tableOf_length]) fun k hk _ => ?_
  have hinv := invertTable_getElem (tableOf_isTable σ) (σ.symm (BitVec.ofNat 8 k)).toNat (BitVec.isLt _)
  have hk256 : k < 256 := hk.trans_eq (invertTable_length _)
  simpa [tableOf_lookup, Nat.mod_eq_of_lt hk256] using hinv

/-! ## The shuffle -/

/-- One turn of the shuffle's loop, at draw number n (R82, R83). -/
theorem shuffleFrom_drawBound (r : RandomSource) (n : Nat) (A : List Byte) :
    shuffleFrom (drawBound n) A (r.afterDraws n) =
      if drawBound n < (drawAnswer r n).toNat then (none, r.afterDraws (n + 1))
      else shuffleFrom (drawBound n - 1) (swapEntries A (drawBound n) (drawAnswer r n).toNat)
        (r.afterDraws (n + 1)) := by
  have hdraw := answer_afterDraws r n
  have hpos : drawBound n ≠ 0 := by simp only [drawBound]; omega
  obtain ⟨i, hi⟩ := Nat.exists_eq_succ_of_ne_zero hpos
  rw [hi] at hdraw ⊢
  rw [shuffleFrom, hdraw]
  rfl

/-- The draws of table c + 1 among those of the whole TBL_GEN (R85). -/
def tableDraws (r : RandomSource) (c k : Nat) : Byte :=
  drawAnswer r (255 * c + k)

/-- After k draws in range, the working array of table c + 1 is the product of their k transpositions. -/
theorem shuffle_after_draws {r : RandomSource} {c k : Nat} (hk : k ≤ 255) (h : DrawsInRange r (255 * c + k)) :
    shuffle (r.afterDraws (255 * c)) =
      shuffleFrom (255 - k) (tableOf (swapProduct (tableDraws r c) k)) (r.afterDraws (255 * c + k)) := by
  induction k with
  | zero => rw [shuffle, identityTable_eq_tableOf]; rfl
  | succ k ih =>
    have hbound : drawBound (255 * c + k) = 255 - k := drawBound_table c hk
    have hrange : ¬ drawBound (255 * c + k) < (drawAnswer r (255 * c + k)).toNat := (h _ (by omega)).not_gt
    rw [ih (by omega) (h.mono (by omega)), ← hbound, shuffleFrom_drawBound, if_neg hrange, hbound,
      ← toNat_ofNat_bound k, swapEntries_tableOf, toNat_ofNat_bound k]
    rfl

/-- With its 255 draws in range a shuffle ends with the table of their product (R82). -/
theorem shuffle_of_inRange {r : RandomSource} {c : Nat} (h : DrawsInRange r (255 * (c + 1))) :
    shuffle (r.afterDraws (255 * c)) =
      (some (tableOf (swapProduct (tableDraws r c) 255)), r.afterDraws (255 * (c + 1))) :=
  shuffle_after_draws (Nat.le_refl 255) h

/-- The first draw above its bound ends the shuffle it belongs to, and no further draw is made (R83, R86). -/
theorem shuffle_of_outOfRange {r : RandomSource} {n : Nat} (h : DrawsInRange r n)
    (hout : drawBound n < (drawAnswer r n).toNat) :
    shuffle (r.afterDraws (255 * (n / 255))) = (none, r.afterDraws (n + 1)) := by
  have hn : 255 * (n / 255) + n % 255 = n := Nat.div_add_mod n 255
  have hshuffle := shuffle_after_draws (c := n / 255) (k := n % 255) (by omega) (hn.symm ▸ h)
  rw [hn] at hshuffle
  exact hshuffle.trans ((shuffleFrom_drawBound r n _).trans (if_pos hout))

end Sys2Proof.Machine
end

section
/-! PROOFS. TBL_GEN (R80): with all draws in range each position's pair is stored in turn, the first draw out of range
ends the command (R85, R86), and what the host then finds in table memory. -/

namespace Sys2Proof.Machine

/-! ## The tables one after another -/

/-- The position of table c + 1. -/
def positionAfter (c : Nat) : Fin 8 :=
  Fin.ofNat 8 (c + 1)

theorem positionAfter_val {c : Nat} (hc : c < 7) : (positionAfter c).val = c + 1 :=
  Nat.mod_eq_of_lt (by omega)

theorem positionAfter_ne_zero {c : Nat} (hc : c < 7) : positionAfter c ≠ 0 := by
  rw [Ne, Fin.ext_iff, positionAfter_val hc]
  exact Nat.succ_ne_zero c

theorem shufflePerm_positionAfter (r : RandomSource) {c : Nat} (hc : c < 7) :
    shufflePerm r (positionAfter c) = swapProduct (tableDraws r c) 255 := by
  rw [shufflePerm, positionAfter_val hc]
  rfl

theorem generatedPositions_drop {c : Nat} (hc : c < 7) :
    generatedPositions.drop c = positionAfter c :: generatedPositions.drop (c + 1) :=
  (by decide : ∀ c < 7, generatedPositions.drop c = positionAfter c :: generatedPositions.drop (c + 1)) c hc

/-- Table memory m with the pairs of the first c shuffles stored. -/
def storedTables (r : RandomSource) (m : Memory) : Nat → Memory
  | 0 => m
  | c + 1 => storePair (storedTables r m c) (positionAfter c) (tableOf (shufflePerm r (positionAfter c)))

/-- After the draws of c tables in range, TBL_GEN goes on with the tables that are left (R85). -/
theorem genTables_after_tables {r : RandomSource} {c : Nat} (hc : c ≤ 7) (h : DrawsInRange r (255 * c)) (m : Memory) :
    genTables generatedPositions m r =
      genTables (generatedPositions.drop c) (storedTables r m c) (r.afterDraws (255 * c)) := by
  induction c with
  | zero => rfl
  | succ c ih =>
    rw [ih (by omega) (h.mono (by omega)), generatedPositions_drop (by omega), genTables, shuffle_of_inRange h,
      storedTables, shufflePerm_positionAfter r (by omega)]

theorem genTables_of_inRange {r : RandomSource} (h : DrawsInRange r Config.drawsPerGen) (m : Memory) :
    genTables generatedPositions m r = (some (storedTables r m 7), r.afterDraws 1785) :=
  genTables_after_tables (Nat.le_refl 7) h m

/-- The first draw above its bound ends TBL_GEN, and no further draw is made (R86). -/
theorem genTables_of_outOfRange {r : RandomSource} {n : Nat} (hn : n < Config.drawsPerGen) (h : DrawsInRange r n)
    (hout : drawBound n < (drawAnswer r n).toNat) (m : Memory) :
    genTables generatedPositions m r = (none, r.afterDraws (n + 1)) := by
  have hc : n / 255 < 7 := Nat.div_lt_of_lt_mul (by rwa [Nat.mul_comm])
  rw [genTables_after_tables hc.le (h.mono (Nat.mul_div_le n 255)), generatedPositions_drop hc, genTables,
    shuffle_of_outOfRange h hout]

/-! ## What the stored tables read as -/

/-- Storing a pair leaves every byte outside table memory alone. -/
theorem storePair_read_outside (m : Memory) {t : Fin 8} (ht : t ≠ 0) {A : List Byte} (hA : A.length = 256) {a : Nat}
    (ha : a < 0x1200 ∨ 0x2000 ≤ a) : Memory.read (storePair m t A) a = Memory.read m a := by
  have he := tableBase_range ht .enc
  have hd := tableBase_range ht .dec
  rw [storePair, Memory.read_store_outside _ _ _ _ (by rw [invertTable_length]; omega),
    Memory.read_store_outside _ _ _ _ (by rw [hA]; omega)]

theorem storedTables_read_outside (r : RandomSource) (m : Memory) {c : Nat} (hc : c ≤ 7) {a : Nat}
    (ha : a < 0x1200 ∨ 0x2000 ≤ a) : Memory.read (storedTables r m c) a = Memory.read m a := by
  induction c with
  | zero => rfl
  | succ c ih =>
    rw [storedTables, storePair_read_outside _ (positionAfter_ne_zero hc) (tableOf_length _) ha, ih (by omega)]

/-- A stored position holds its permutation and the inverse: its own pair reads so, later pairs leave it alone. -/
theorem storedTables_read (r : RandomSource) (m : Memory) {c : Nat} (hc : c ≤ 7) {p : Fin 8} (hp : p ≠ 0)
    (hpc : p.val ≤ c) (x : Byte) :
    Memory.read (storedTables r m c) (tableAddr p .enc x) = shufflePerm r p x ∧
      Memory.read (storedTables r m c) (tableAddr p .dec x) = (shufflePerm r p).symm x := by
  induction c with
  | zero => exact absurd (Fin.ext (Nat.le_zero.mp hpc)) hp
  | succ c ih =>
    by_cases hlast : p = positionAfter c
    · rw [storedTables, ← hlast, storePair_read_enc _ _ (tableOf_length _), storePair_read_dec]
      simp only [invertTable_tableOf, tableOf_lookup, and_self]
    · have hpos := positionAfter_val hc
      have hval : p.val ≠ c + 1 := fun e => hlast (Fin.ext (e.trans hpos.symm))
      rw [storedTables, storePair_read_other _ hlast (tableOf_length _), storePair_read_other _ hlast (tableOf_length _)]
      exact ih (by omega) (by omega)

/-! ## The command -/

/-- What TBL_GEN makes of s when all its draws are in range. -/
def State.generated (s : State) : State :=
  (s.setTables (storedTables s.rng s.tables 7) true).setRng (s.rng.afterDraws 1785)

/-- TBL_GEN with all 1785 draws in range (R80, R85). -/
theorem exec_tblGen_of_inRange {s : State} (h : DrawsInRange s.rng Config.drawsPerGen) :
    exec .tblGen s = .next s.generated := by
  have hgen : generate s = s.generated := by
    rw [generate, genTables_of_inRange h]
    rfl
  exact congrArg _ hgen

/-- TBL_GEN whose draw number n is the first out of range (R86). -/
theorem exec_tblGen_of_outOfRange {s : State} {n : Nat} (hn : n < Config.drawsPerGen) (h : DrawsInRange s.rng n)
    (hout : drawBound n < (drawAnswer s.rng n).toNat) :
    exec .tblGen s = .next (raiseError .rng (spoilTables (s.setRng (s.rng.afterDraws (n + 1))))) := by
  have hgen : generate s = raiseError .rng (spoilTables (s.setRng (s.rng.afterDraws (n + 1)))) := by
    rw [generate, genTables_of_outOfRange hn h hout]
  exact congrArg _ hgen

/-- The pair that TBL_GEN leaves at a position it generates (R82, R84). -/
theorem generated_entry (s : State) {p : Fin 8} (hp : p ≠ 0) (x : Byte) :
    s.generated.entry .enc p x = shufflePerm s.rng p x ∧
      s.generated.entry .dec p x = (shufflePerm s.rng p).symm x := by
  rw [State.entry_of_ne hp, State.entry_of_ne hp]
  exact storedTables_read s.rng s.tables (Nat.le_refl 7) hp (Nat.le_of_lt_succ p.isLt) x

/-- Everything but the tables, TVALID and the source is as before (R80). The named updates are unfolded one by one,
because `rfl` would evaluate the seven stores. -/
theorem generated_frame (s : State) :
    s.generated = { s with tables := s.generated.tables, tvalid := true, rng := s.generated.rng } := by
  simp only [State.generated, State.setTables, State.setRng]

/-- Settles O20: the seven stored pairs, one shuffle after another. -/
theorem tblGenIsFisherYates : Obligations.TblGenIsFisherYates := fun s h =>
  ⟨s.generated, exec_tblGen_of_inRange h, generated_frame s, rfl, fun _ hp => generated_entry s hp,
    fun _ ha => storedTables_read_outside s.rng s.tables (Nat.le_refl 7) ha⟩

/-- Spoiling the tables leaves every byte outside table memory alone (R86). -/
theorem spoilTables_read_outside (s : State) {a : Nat} (ha : a < 0x1200 ∨ 0x2000 ≤ a) :
    Memory.read (spoilTables s).tables a = Memory.read s.tables a :=
  Memory.read_store_outside _ _ _ _ (by rw [List.length_map, List.length_range]; omega)

/-- With TVALID = 0 every address of tables 1 to 7 reads as any value (R36). -/
theorem hostRead_generated_invalid {s : State} (hv : s.tvalid = false) {a : Addr} (hlo : 0x1200 ≤ a.toNat)
    (hhi : a.toNat < 0x2000) : hostRead a s = (Config.freeByte s.freeCtr, s.afterAny) := by
  refine hostRead_table_invalid (windowFields_addr (by omega) hhi).symm ?_ hv
  rw [Ne, Fin.ext_iff]
  show a.toNat / 0x200 % 8 ≠ 0
  omega

/-- Settles O21: the shuffle that meets draw number n ends the command, and TVALID = 0 hides what it leaves. -/
theorem outOfRangeDrawStopsTblGen : Obligations.OutOfRangeDrawStopsTblGen := by
  intro s n hn h hout
  have hexec := exec_tblGen_of_outOfRange hn h hout
  rw [raiseError_eq] at hexec
  exact ⟨_, hexec, rfl, rfl, fun _ _ hlo hhi => hostRead_generated_invalid rfl hlo hhi,
    fun _ ha => spoilTables_read_outside _ ha⟩

/-- Settles O22: position 0 is the identity by hardwiring (R17), every other a permutation with its inverse. -/
theorem generatedTablesAreInverseBijections : Obligations.GeneratedTablesAreInverseBijections := by
  intro s h
  refine ⟨s.generated, exec_tblGen_of_inRange h, fun p => ?_⟩
  by_cases hp : p = 0
  · subst hp
    exact ⟨Function.bijective_id, fun _ => ⟨rfl, rfl⟩⟩
  · have hentry := generated_entry s hp
    rw [funext fun x => (hentry x).1]
    refine ⟨(shufflePerm s.rng p).bijective, fun x => ?_⟩
    rw [(hentry _).2, (hentry _).2, Equiv.symm_apply_apply, Equiv.apply_symm_apply]
    exact ⟨rfl, rfl⟩

end Sys2Proof.Machine
end

section
/-! PROOFS. Products of a shuffle's transpositions: the two closed forms of R88, and that every permutation of the bytes
is such a product of in-range draws (41_table_factory.md after R88). -/

namespace Sys2Proof.Machine

theorem swapProduct_succ (j : Nat → Byte) (k : Nat) :
    swapProduct j (k + 1) = swapProduct j k * Equiv.swap (BitVec.ofNat 8 (255 - k)) (j k) := rfl

/-- A product of k transpositions looks at the first k draws alone. -/
theorem swapProduct_congr {i j : Nat → Byte} {k : Nat} (h : ∀ n < k, i n = j n) :
    swapProduct i k = swapProduct j k := by
  induction k with
  | zero => rfl
  | succ k ih =>
    rw [swapProduct_succ, swapProduct_succ, ih fun n hn => h n (by omega), h k (Nat.lt_succ_self k)]

/-! ## Closed forms -/

/-- A draw at its bound swaps an entry with itself (R88). -/
theorem swapProduct_of_bounds {j : Nat → Byte} {k : Nat} (h : ∀ n < k, (j n).toNat = 255 - n) :
    swapProduct j k = 1 := by
  induction k with
  | zero => rfl
  | succ k ih =>
    have hself : j k = BitVec.ofNat 8 (255 - k) := by
      rw [← h k (Nat.lt_succ_self k), BitVec.ofNat_toNat, BitVec.setWidth_eq]
    rw [swapProduct_succ, ih fun n hn => h n (by omega), hself, Equiv.swap_self, one_mul]
    rfl

/-- After k draws of 0 the entries above 255 - k hold their successors, entry 0 the value that is next in turn, and the
others are still untouched (R88). -/
theorem swapProduct_of_zeros {k : Nat} (hk : k ≤ 255) (x : Byte) :
    swapProduct (fun _ => 0) k x =
      if x = 0 then BitVec.ofNat 8 (256 - k) else if 255 - k < x.toNat then x + 1 else x := by
  induction k generalizing x with
  | zero =>
    have hx : ¬ 255 - 0 < x.toNat := Nat.not_lt.mpr (Nat.le_of_lt_succ x.isLt)
    rw [if_neg hx]
    split
    · next h => exact h
    · rfl
  | succ k ih =>
    have hi := toNat_ofNat_bound k
    have hnext : BitVec.ofNat 8 (256 - k) = BitVec.ofNat 8 (255 - k) + 1 := by
      rw [show 256 - k = 255 - k + 1 by omega]
      exact BitVec.ofNat_add (255 - k) 1
    rw [swapProduct_succ, Equiv.Perm.mul_apply, show 256 - (k + 1) = 255 - k by omega]
    generalize BitVec.ofNat 8 (255 - k) = i at hi hnext ⊢
    by_cases hxi : x = i
    · rw [hxi, Equiv.swap_apply_left, ih (by omega), if_pos rfl, hnext, if_neg (by bv_omega), if_pos (by omega)]
    by_cases hx0 : x = 0
    · rw [hx0, Equiv.swap_apply_right, ih (by omega), if_neg (by bv_omega), if_neg (by omega), if_pos rfl]
    · have hx : 255 - (k + 1) < x.toNat ↔ 255 - k < x.toNat := by bv_omega
      rw [Equiv.swap_apply_of_ne_of_ne hxi hx0, ih (by omega), if_neg hx0, if_neg hx0]
      simp only [hx]

/-- Settles O23: the product of the table's transpositions in closed form. -/
theorem shuffleClosedForms : Obligations.ShuffleClosedForms := by
  intro s p hp hrange
  refine ⟨s.generated, exec_tblGen_of_inRange hrange, fun hbounds x => ?_, fun hzeros x => ?_⟩
  · have hperm : shufflePerm s.rng p = 1 := swapProduct_of_bounds hbounds
    have hentry := generated_entry s hp x
    rwa [hperm] at hentry
  · have hsucc : ∀ y, shufflePerm s.rng p y = y + 1 := fun y => by
      rw [shufflePerm, swapProduct_congr hzeros, swapProduct_of_zeros (Nat.le_refl 255)]
      split_ifs <;> bv_omega
    obtain ⟨henc, hdec⟩ := generated_entry s hp x
    refine ⟨henc.trans (hsucc x), hdec.trans ((Equiv.symm_apply_eq _).mpr ?_)⟩
    rw [hsucc, BitVec.sub_add_cancel]

/-! ## Every permutation is the product of some draws -/

/-- What is left of π once the first k transpositions are undone, each chosen to bring the value of its index in place. -/
def residual (π : Equiv.Perm Byte) : Nat → Equiv.Perm Byte
  | 0 => π
  | k + 1 => Equiv.swap (BitVec.ofNat 8 (255 - k)) (residual π k (BitVec.ofNat 8 (255 - k))) * residual π k

/-- The draw that brings the value at index 255 - k in place. -/
def drawFor (π : Equiv.Perm Byte) (k : Nat) : Byte :=
  residual π k (BitVec.ofNat 8 (255 - k))

theorem residual_succ (π : Equiv.Perm Byte) (k : Nat) :
    residual π (k + 1) = Equiv.swap (BitVec.ofNat 8 (255 - k)) (drawFor π k) * residual π k := rfl

theorem swapProduct_mul_residual (π : Equiv.Perm Byte) (k : Nat) : swapProduct (drawFor π) k * residual π k = π := by
  induction k with
  | zero => exact one_mul π
  | succ k ih => rw [swapProduct_succ, residual_succ, mul_assoc, Equiv.swap_mul_self_mul, ih]

/-- A permutation that keeps every byte above i in place takes no byte up to i above i. -/
theorem apply_le_of_fixes_above {σ : Equiv.Perm Byte} {i : Nat} (h : ∀ x : Byte, i < x.toNat → σ x = x) {x : Byte}
    (hx : x.toNat ≤ i) : (σ x).toNat ≤ i := by
  by_contra habove
  have hfix : σ x = x := σ.injective (h (σ x) (Nat.lt_of_not_le habove))
  rw [hfix] at habove
  exact habove hx

/-- The indices above 255 - k are done. -/
theorem residual_fixes_above (π : Equiv.Perm Byte) {k : Nat} (hk : k ≤ 255) (x : Byte) (hx : 255 - k < x.toNat) :
    residual π k x = x := by
  induction k generalizing x with
  | zero => exact absurd x.isLt (by omega)
  | succ k ih =>
    have hindex := toNat_ofNat_bound k
    rw [residual_succ, Equiv.Perm.mul_apply]
    by_cases hlast : x = BitVec.ofNat 8 (255 - k)
    · rw [hlast]
      exact Equiv.swap_apply_right _ _
    · have hlt : 255 - k < x.toNat := by
        have : x.toNat ≠ 255 - k := fun e => hlast (BitVec.eq_of_toNat_eq (e.trans hindex.symm))
        omega
      have hdraw : (drawFor π k).toNat ≤ 255 - k := apply_le_of_fixes_above (fun y => ih (by omega) y) hindex.le
      rw [ih (by omega) x hlt]
      exact Equiv.swap_apply_of_ne_of_ne hlast fun e => by rw [← e] at hdraw; omega

theorem drawFor_le (π : Equiv.Perm Byte) {k : Nat} (hk : k ≤ 255) : (drawFor π k).toNat ≤ 255 - k :=
  apply_le_of_fixes_above (residual_fixes_above π hk) (toNat_ofNat_bound k).le

/-- With entries 1 to 255 in place, entry 0 is so too. -/
theorem residual_eq_one (π : Equiv.Perm Byte) : residual π 255 = 1 := by
  refine Equiv.ext fun x => ?_
  by_cases hx : 0 < x.toNat
  · exact residual_fixes_above π (Nat.le_refl 255) x hx
  · have hzero : x.toNat ≤ 0 := Nat.le_of_not_lt hx
    have himage := apply_le_of_fixes_above (residual_fixes_above π (Nat.le_refl 255)) hzero
    exact BitVec.eq_of_toNat_eq ((Nat.le_zero.mp himage).trans (Nat.le_zero.mp hzero).symm)

/-- The chosen draws make π. -/
theorem swapProduct_drawFor (π : Equiv.Perm Byte) : swapProduct (drawFor π) 255 = π := by
  have h := swapProduct_mul_residual π 255
  rwa [residual_eq_one, mul_one] at h

/-- The 1785 answers that make the permutation π p at each position p, in the order of R85. -/
def answersFor (π : Fin 8 → Equiv.Perm Byte) : List Byte :=
  (List.range Config.drawsPerGen).map fun n => drawFor (π (positionAfter (n / 255))) (n % 255)

theorem answersFor_length (π : Fin 8 → Equiv.Perm Byte) : (answersFor π).length = Config.drawsPerGen := by
  rw [answersFor, List.length_map, List.length_range]

theorem drawAnswer_answersFor (π : Fin 8 → Equiv.Perm Byte) (asked : Nat) {n : Nat} (hn : n < Config.drawsPerGen) :
    drawAnswer ⟨answersFor π, asked⟩ n = drawFor (π (positionAfter (n / 255))) (n % 255) := by
  rw [drawAnswer, List.getD_eq_getElem _ _ (by rwa [answersFor_length])]
  simp [answersFor]

theorem drawsInRange_answersFor (π : Fin 8 → Equiv.Perm Byte) (asked : Nat) :
    DrawsInRange ⟨answersFor π, asked⟩ Config.drawsPerGen := fun n hn => by
  rw [drawAnswer_answersFor π asked hn]
  exact drawFor_le _ (Nat.mod_lt n (by decide)).le

theorem shufflePerm_answersFor (π : Fin 8 → Equiv.Perm Byte) (asked : Nat) {p : Fin 8} (hp : p ≠ 0) :
    shufflePerm ⟨answersFor π, asked⟩ p = π p := by
  have hpos : p.val ≠ 0 := fun e => hp (Fin.ext e)
  have hdraws : ∀ k < 255, drawAnswer ⟨answersFor π, asked⟩ (255 * (p.val - 1) + k) = drawFor (π p) k := fun k hk => by
    have htable : (255 * (p.val - 1) + k) / 255 = p.val - 1 := by omega
    have hp' : positionAfter (p.val - 1) = p := Fin.ext ((positionAfter_val (by omega)).trans (by omega))
    rw [drawAnswer_answersFor π asked (by show _ < 1785; omega), htable, hp', Nat.mul_add_mod, Nat.mod_eq_of_lt hk]
  rw [shufflePerm, swapProduct_congr hdraws, swapProduct_drawFor]

/-- Settles O24: each table's draws bring its entries in place one by one, from entry 255 down. -/
theorem everyTableSetArises : Obligations.EveryTableSetArises := by
  intro π
  refine ⟨answersFor π, answersFor_length π, fun s => ?_⟩
  have hrange := drawsInRange_answersFor π s.rng.asked
  refine ⟨_, exec_tblGen_of_inRange hrange, rfl, fun p hp x => ?_⟩
  rw [(generated_entry _ hp x).1, shufflePerm_answersFor π s.rng.asked hp]

end Sys2Proof.Machine
end

section
/-! PROOFS. A command as its checks (R154) and the effect it has once they pass, and commands in a row: what the
statements about single commands share. -/

namespace Sys2Proof.Machine

/-! ## The checks of a command -/

/-- The flags a command needs (R150's "raised by" column). -/
def commandNeeds (i : Instr) : Needs where
  key := decide (i ∈ keyCommands)
  tables := decide (i ∈ tableCommands)
  block := decide (i ∈ blockCommands)

/-- What a command does once its checks have passed. -/
def commandEffect (i : Instr) (s : State) : State :=
  match i with
  | .nop => s
  | .errClear => clearError s
  | .keyClear => clearKey s
  | .keyAbsorb => absorbByte s
  | .tblGen => generate s
  | .keymix => s.setBlock (keyMix s.key s.block)
  | .sub => s.setBlock (substitute (s.entry .enc) s.block)
  | .invsub => s.setBlock (substitute (s.entry .dec) s.block)
  | .rotl => s.setBlock (rotL s.block)
  | .rotr => s.setBlock (rotR s.block)
  | .encRound => s.setBlock (encRound s s.block)
  | .decRound => s.setBlock (decRound s s.block)
  | .encrypt => s.setBlock ((encRound s)^[Config.rounds] s.block)
  | .decrypt => s.setBlock ((decRound s)^[Config.rounds] s.block)

/-- Every command is its effect behind its checks; the lists of R150 name the flags each definition checks. -/
theorem exec_eq_runChecked (i : Instr) (s : State) :
    exec i s = .next (runChecked (commandNeeds i) (commandEffect i) s) := by
  cases i <;> rfl

/-- The first check that fails is recorded, and nothing else changes (R152, R153). -/
theorem exec_of_firstError {i : Instr} {s : State} {c : ErrCode} (h : firstError (commandNeeds i) s = some c) :
    exec i s = .next (s.withError c.code) := by
  have hrun : runChecked (commandNeeds i) (commandEffect i) s = raiseError c s := by rw [runChecked, h]
  rw [exec_eq_runChecked, hrun, raiseError_eq, State.withError]

theorem bvalid_eq_true_iff {s : State} : s.bvalid = true ↔ s.bwr = 0xFF := by
  rw [State.bvalid, beq_iff_eq]

section Checks

variable {i : Instr} {s : State}

theorem exec_of_kvalid_false (hi : i ∈ keyCommands) (h : s.kvalid = false) : exec i s = .next (s.withError 2) :=
  exec_of_firstError (c := .nokey) (by simp [firstError, commandNeeds, hi, h])

theorem exec_of_tvalid_false (hk : i ∈ keyCommands → s.kvalid = true) (hi : i ∈ tableCommands)
    (h : s.tvalid = false) : exec i s = .next (s.withError 3) :=
  exec_of_firstError (c := .notables) (by simpa [firstError, commandNeeds, hi, h] using hk)

theorem exec_of_bwr_ne (hk : i ∈ keyCommands → s.kvalid = true) (ht : i ∈ tableCommands → s.tvalid = true)
    (hi : i ∈ blockCommands) (h : s.bwr ≠ 0xFF) : exec i s = .next (s.withError 4) := by
  have hb : s.bvalid = false := Bool.eq_false_iff.mpr (mt bvalid_eq_true_iff.mp h)
  have hkey : ((commandNeeds i).key && !s.kvalid) = false := by simpa [commandNeeds] using hk
  have htables : ((commandNeeds i).tables && !s.tvalid) = false := by simpa [commandNeeds] using ht
  have hblock : (commandNeeds i).block = true := by simpa [commandNeeds] using hi
  exact exec_of_firstError (c := .noblock) (by rw [firstError, hkey, htables, hblock, hb]; rfl)

theorem exec_of_checks_pass (hk : i ∈ keyCommands → s.kvalid = true) (ht : i ∈ tableCommands → s.tvalid = true)
    (hb : i ∈ blockCommands → s.bwr = 0xFF) : exec i s = .next (commandEffect i s) := by
  have hpass : firstError (commandNeeds i) s = none :=
    (firstError_eq_none_iff _ s).mpr (by simpa [commandNeeds, bvalid_eq_true_iff] using ⟨hk, ht, hb⟩)
  rw [exec_eq_runChecked, runChecked_of_pass hpass]

/-- With key, tables and block valid every command has its effect. -/
theorem exec_of_ready (hk : s.kvalid = true) (ht : s.tvalid = true) (hb : s.bwr = 0xFF) :
    exec i s = .next (commandEffect i s) :=
  exec_of_checks_pass (fun _ => hk) (fun _ => ht) fun _ => hb

/-- A command that needs all three flags checks them in R154's order, and with all of them 1 answers its effect. -/
theorem exec_of_three_checks {P : State → Prop} (hkey : i ∈ keyCommands) (htables : i ∈ tableCommands)
    (hblock : i ∈ blockCommands)
    (heffect : s.kvalid = true → s.tvalid = true → s.bwr = 0xFF → P (commandEffect i s)) :
    (s.kvalid = false → exec i s = .next (s.withError 2)) ∧
      (s.kvalid = true → s.tvalid = false → exec i s = .next (s.withError 3)) ∧
      (s.kvalid = true → s.tvalid = true → s.bwr ≠ 0xFF → exec i s = .next (s.withError 4)) ∧
      (s.kvalid = true → s.tvalid = true → s.bwr = 0xFF → ∃ t, exec i s = .next t ∧ P t) :=
  ⟨exec_of_kvalid_false hkey,
    fun hk => exec_of_tvalid_false (fun _ => hk) htables,
    fun hk ht => exec_of_bwr_ne (fun _ => hk) (fun _ => ht) hblock,
    fun hk ht hb => ⟨_, exec_of_ready hk ht hb, heffect hk ht hb⟩⟩

end Checks

/-! ## Commands in a row -/

theorem runCommands_cons {i : Instr} {s t : State} (h : exec i s = .next t) (rest : List Instr) :
    runCommands (i :: rest) s = runCommands rest t := by
  rw [runCommands, h]

/-- A command that answers a new block f of the old one, n times in a row, answers the n-th iterate of f. -/
theorem runCommands_replicate {i : Instr} {s : State} {f : Bytes8 → Bytes8}
    (h : ∀ b, exec i (s.setBlock b) = .next (s.setBlock (f b))) (n : Nat) (b : Bytes8) :
    runCommands (List.replicate n i) (s.setBlock b) = .next (s.setBlock (f^[n] b)) := by
  induction n generalizing b with
  | zero => rfl
  | succ n ih => rw [List.replicate_succ, runCommands_cons (h b), ih, Function.iterate_succ_apply]

/-- If the iterate gives the block back, the commands give the state back. -/
theorem runCommands_replicate_of_iterate_eq {i : Instr} {s : State} {f : Bytes8 → Bytes8}
    (h : ∀ b, exec i (s.setBlock b) = .next (s.setBlock (f b))) {n : Nat} (hn : f^[n] s.block = s.block) :
    runCommands (List.replicate n i) s = .next s := by
  have hrun := runCommands_replicate h n s.block
  rwa [hn] at hrun

end Sys2Proof.Machine
end

section
/-! PROOFS. The rotations of the block (R102, R120): their bits byte by byte, the left rotation on the 64-bit view (R106),
and its iterates. -/

namespace Sys2Proof.Machine

/-! ## Byte by byte -/

theorem getLsbD_byteAt_rotL (b : Bytes8) (p : Fin 8) {j : Nat} (hj : j < 8) :
    (byteAt (rotL b) p).getLsbD j =
      if j = 0 then (byteAt b (p + 1)).getLsbD 7 else (byteAt b p).getLsbD (j - 1) := by
  rw [rotL, byteAt_bytes8]
  by_cases h0 : j = 0
  · simp [h0, BitVec.msb_eq_getLsbD_last]
  · have h1 : ¬ j < 1 := by omega
    simp only [BitVec.getLsbD_or, BitVec.getLsbD_shiftLeft, BitVec.getLsbD_setWidth, BitVec.getLsbD_ofBool]
    simp [h0, h1, hj]

theorem getLsbD_byteAt_rotR (b : Bytes8) (p : Fin 8) {j : Nat} (hj : j < 8) :
    (byteAt (rotR b) p).getLsbD j =
      if j = 7 then (byteAt b (p + 7)).getLsbD 0 else (byteAt b p).getLsbD (j + 1) := by
  rw [rotR, byteAt_bytes8]
  by_cases h7 : j = 7
  · simp [h7]
  · have hlt : j < 7 := by omega
    simp [h7, hlt, Nat.add_comm 1 j]

/-- R120: the right rotation undoes the left one, each bit going to its neighbour and back. -/
theorem rotR_rotL (b : Bytes8) : rotR (rotL b) = b := by
  refine bytes8_ext fun p => BitVec.eq_of_getLsbD_eq fun j hj => ?_
  rw [getLsbD_byteAt_rotR _ _ hj]
  split
  case isTrue h7 =>
    have hback : p + 7 + 1 = p := by omega
    rw [getLsbD_byteAt_rotL _ _ (by decide), if_pos rfl, hback, h7]
  case isFalse h7 => rw [getLsbD_byteAt_rotL _ _ (by omega), if_neg (by omega), Nat.add_sub_cancel]

/-! ## The 64-bit view -/

/-- Words that agree at bit j of every byte p, for all j < 8, are equal. -/
theorem quad_ext_bits {v w : Quad}
    (h : ∀ (p : Fin 8) (j : Nat), j < 8 → v.getLsbD (56 - 8 * p.val + j) = w.getLsbD (56 - 8 * p.val + j)) : v = w :=
  quad_ext_bytes fun p => BitVec.eq_of_getLsbD_eq fun j hj => by simp only [BitVec.getLsbD_extractLsb', h p j hj]

/-- Bit i of the word rotated left by n is bit i - n mod 64 of the word. -/
theorem getLsbD_rotateLeft_quad (v : Quad) (n : Nat) {i : Nat} (hi : i < 64) :
    (v.rotateLeft n).getLsbD i = v.getLsbD ((i + (64 - n % 64)) % 64) := by
  rw [BitVec.getLsbD_rotateLeft]
  by_cases h : i < n % 64
  · have hbit : (i + (64 - n % 64)) % 64 = 64 - n % 64 + i := by omega
    simp [h, hbit]
  · have hbit : (i + (64 - n % 64)) % 64 = i - n % 64 := by omega
    simp [h, hbit, hi]

/-- R106: the byte-level procedure is a rotation of the 64-bit view by one bit. -/
theorem block64_rotL (b : Bytes8) : block64 (rotL b) = (block64 b).rotateLeft 1 := by
  refine quad_ext_bits fun p j hj => ?_
  rw [getLsbD_block64 _ p hj, getLsbD_byteAt_rotL b p hj, getLsbD_rotateLeft_quad _ 1 (by omega)]
  split
  case isTrue h0 =>
    have hbit : (56 - 8 * p.val + j + (64 - 1 % 64)) % 64 = 56 - 8 * (p + 1).val + 7 := by omega
    rw [hbit, getLsbD_block64 b (p + 1) (by decide)]
  case isFalse h0 =>
    have hbit : (56 - 8 * p.val + j + (64 - 1 % 64)) % 64 = 56 - 8 * p.val + (j - 1) := by omega
    rw [hbit, getLsbD_block64 b p (by omega)]

/-- One rotation more: the amounts add up. -/
theorem rotateLeft_rotateLeft_one (v : Quad) (n : Nat) : (v.rotateLeft n).rotateLeft 1 = v.rotateLeft (n + 1) := by
  refine BitVec.eq_of_getLsbD_eq fun i hi => ?_
  have hbit : ((i + (64 - 1 % 64)) % 64 + (64 - n % 64)) % 64 = (i + (64 - (n + 1) % 64)) % 64 := by omega
  rw [getLsbD_rotateLeft_quad _ 1 hi, getLsbD_rotateLeft_quad v n (by omega), getLsbD_rotateLeft_quad v _ hi, hbit]

/-- The 1-bit left rotation of the 64-bit view (R109's rotl1). -/
def rotl1 (v : Quad) : Quad :=
  v.rotateLeft 1

/-- R109: rotlN is N applications of rotl1. -/
theorem iterate_rotl1 (v : Quad) (n : Nat) : rotl1^[n] v = v.rotateLeft n := by
  induction n with
  | zero => exact BitVec.eq_of_getLsbD_eq fun i hi => by simp [getLsbD_rotateLeft_quad v 0 hi, Nat.mod_eq_of_lt hi]
  | succ n ih => rw [Function.iterate_succ_apply', ih, rotl1, rotateLeft_rotateLeft_one]

theorem rotl1_xor (v w : Quad) : rotl1 (v ^^^ w) = rotl1 v ^^^ rotl1 w :=
  BitVec.eq_of_getLsbD_eq fun i hi => by simp only [rotl1, BitVec.getLsbD_xor, getLsbD_rotateLeft_quad _ 1 hi]

/-- A rotation by 64 is a rotation by 0. -/
theorem iterate_rotL_64 (b : Bytes8) : rotL^[64] b = b := by
  have hview : block64 (rotL^[64] b) = rotl1^[64] (block64 b) :=
    Function.Semiconj.iterate_right (gb := rotl1) block64_rotL 64 b
  have hround : rotl1^[64] (block64 b) = block64 b := by
    rw [iterate_rotl1, ← BitVec.rotateLeft_mod_eq_rotateLeft]
    exact (iterate_rotl1 (block64 b) 0).symm
  rw [← ofBlock64_block64 (rotL^[64] b), hview, hround, ofBlock64_block64]

/-- 64 right rotations undo 64 left ones, which change nothing. -/
theorem iterate_rotR_64 (b : Bytes8) : rotR^[64] b = b := by
  have hundo : rotR^[64] (rotL^[64] b) = b := Function.LeftInverse.iterate rotR_rotL 64 b
  rwa [iterate_rotL_64] at hundo

end Sys2Proof.Machine
end

section
/-! PROOFS. The encrypt path of 42_encrypt.md: the round steps as commands, the round and the cipher as those commands in
a row, and the cipher in closed form over identity tables. -/

namespace Sys2Proof.Machine

/-! ## The round steps -/

section Steps

variable {s : State}

theorem exec_keymix (hk : s.kvalid = true) (hb : s.bwr = 0xFF) :
    exec .keymix s = .next (s.setBlock (keyMix s.key s.block)) :=
  exec_of_checks_pass (fun _ => hk) (absurd · (by decide)) fun _ => hb

theorem exec_sub (ht : s.tvalid = true) (hb : s.bwr = 0xFF) :
    exec .sub s = .next (s.setBlock (substitute (s.entry .enc) s.block)) :=
  exec_of_checks_pass (absurd · (by decide)) (fun _ => ht) fun _ => hb

theorem exec_rotl (hb : s.bwr = 0xFF) : exec .rotl s = .next (s.setBlock (rotL s.block)) :=
  exec_of_checks_pass (absurd · (by decide)) (absurd · (by decide)) fun _ => hb

theorem exec_rotr (hb : s.bwr = 0xFF) : exec .rotr s = .next (s.setBlock (rotR s.block)) :=
  exec_of_checks_pass (absurd · (by decide)) (absurd · (by decide)) fun _ => hb

end Steps

/-- Settles O25: the two checks in their order, and the XOR byte by byte. -/
theorem keymixXorsKey : Obligations.KeymixXorsKey :=
  ⟨decode_encode .keymix, fun s =>
    ⟨exec_of_kvalid_false (by decide),
      fun hk => exec_of_bwr_ne (fun _ => hk) (absurd · (by decide)) (by decide),
      fun hk hb => ⟨_, exec_keymix hk hb, rfl, byteAt_bytes8 _⟩⟩⟩

/-- Settles O26: the two checks in their order, and the lookup byte by byte, that of table 0 being the identity. -/
theorem subReplacesByEntry : Obligations.SubReplacesByEntry :=
  ⟨decode_encode .sub, fun s =>
    ⟨exec_of_tvalid_false (absurd · (by decide)) (by decide),
      fun ht => exec_of_bwr_ne (absurd · (by decide)) (fun _ => ht) (by decide),
      fun ht hb => ⟨_, exec_sub ht hb, rfl, byteAt_bytes8 _,
        (byteAt_bytes8 _ 0).trans (State.entry_zero s .enc _)⟩⟩⟩

/-- Settles O27: the byte-level procedure, bit by bit, and what it makes of the 64-bit view. -/
theorem rotlRotatesWholeBlockLeft : Obligations.RotlRotatesWholeBlockLeft :=
  ⟨decode_encode .rotl, fun s =>
    ⟨exec_of_bwr_ne (absurd · (by decide)) (absurd · (by decide)) (by decide),
      fun hb => ⟨_, exec_rotl hb, rfl, block64_rotL s.block, fun p _ hj => getLsbD_byteAt_rotL s.block p hj⟩⟩⟩

/-- Settles O28: 64 commands iterate the rotation 64 times. -/
theorem sixtyFourRotationsRestoreBlock : Obligations.SixtyFourRotationsRestoreBlock := fun s hb =>
  ⟨runCommands_replicate_of_iterate_eq (f := rotL) (fun _ => exec_rotl hb) (iterate_rotL_64 s.block),
    runCommands_replicate_of_iterate_eq (f := rotR) (fun _ => exec_rotr hb) (iterate_rotR_64 s.block)⟩

/-! ## The round and the cipher -/

section Rounds

variable {s : State} (hk : s.kvalid = true) (ht : s.tvalid = true) (hb : s.bwr = 0xFF)
include hk ht hb

/-- Each step of the round finds key, tables and block as valid as the one before it did. -/
theorem runCommands_keymix_sub_rotl :
    runCommands [.keymix, .sub, .rotl] s = .next (s.setBlock (encRound s s.block)) := by
  have hsub (b : Bytes8) : exec .sub (s.setBlock b) = .next (s.setBlock (substitute (s.entry .enc) b)) :=
    exec_sub ht hb
  have hrotl (b : Bytes8) : exec .rotl (s.setBlock b) = .next (s.setBlock (rotL b)) := exec_rotl hb
  rw [runCommands_cons (exec_keymix hk hb), runCommands_cons (hsub _), runCommands_cons (hrotl _)]
  rfl

theorem runCommands_replicate_encRound (n : Nat) :
    runCommands (List.replicate n .encRound) s = .next (s.setBlock ((encRound s)^[n] s.block)) :=
  runCommands_replicate (fun b => exec_of_ready (s := s.setBlock b) hk ht hb) n s.block

end Rounds

/-- Settles O29: the three checks in their order, and the round as its steps in a row. -/
theorem encRoundIsMixSubRotate : Obligations.EncRoundIsMixSubRotate :=
  ⟨decode_encode .encRound, fun s => exec_of_three_checks (by decide) (by decide) (by decide) fun hk ht hb =>
    ⟨rfl, runCommands_keymix_sub_rotl hk ht hb⟩⟩

/-- Settles O30: the three checks in their order, and the cipher as its rounds in a row. -/
theorem encryptIsSixteenRounds : Obligations.EncryptIsSixteenRounds :=
  ⟨decode_encode .encrypt, fun s => exec_of_three_checks (by decide) (by decide) (by decide) fun hk ht hb =>
    ⟨rfl, runCommands_replicate_encRound hk ht hb Config.rounds⟩⟩

/-! ## Identity tables -/

/-- Key mixing is an XOR of the 64-bit views. -/
theorem block64_keyMix (key b : Bytes8) : block64 (keyMix key b) = block64 b ^^^ block64 key :=
  quad_ext_bytes fun p => by
    rw [extractLsb'_block64, BitVec.extractLsb'_xor, extractLsb'_block64, extractLsb'_block64, keyMix, byteAt_bytes8]

theorem substitute_of_identity {lookup : Fin 8 → Byte → Byte} (h : ∀ p x, lookup p x = x) (b : Bytes8) :
    substitute lookup b = b :=
  bytes8_ext fun p => (byteAt_bytes8 _ p).trans (h p _)

/-- R109's round over identity tables: v goes to rotl1(v ^ K). -/
def affineRound (key v : Quad) : Quad :=
  rotl1 (v ^^^ key)

theorem block64_encRound_of_identity {s : State} (h : ∀ p x, s.entry .enc p x = x) (b : Bytes8) :
    block64 (encRound s b) = affineRound (block64 s.key) (block64 b) := by
  rw [encRound, substitute_of_identity h, block64_rotL, block64_keyMix, affineRound, rotl1]

/-- One round more rotates every term of the sum and adds K's own rotation. -/
theorem rotl1_rotationSum_xor (k : Quad) (n : Nat) :
    rotl1 (rotationSum k n) ^^^ rotl1 k = rotationSum k (n + 1) := by
  induction n with
  | zero =>
    have hzero : rotl1 (rotationSum k 0) = 0 := (by decide : rotl1 0 = 0)
    rw [hzero, rotationSum, rotationSum, BitVec.xor_comm]
    rfl
  | succ n ih =>
    have hterm : rotl1 (k.rotateLeft (n + 1)) = k.rotateLeft (n + 2) := rotateLeft_rotateLeft_one k (n + 1)
    rw [rotationSum, rotl1_xor, BitVec.xor_assoc, ih, hterm]
    rfl

/-- R109: the rounds rotate v once each, and add up the rotations of K. -/
theorem iterate_affineRound (k v : Quad) (n : Nat) :
    (affineRound k)^[n] v = v.rotateLeft n ^^^ rotationSum k n := by
  induction n with
  | zero => rw [← iterate_rotl1 v 0]; exact BitVec.xor_zero.symm
  | succ n ih =>
    calc (affineRound k)^[n + 1] v
        = rotl1 (v.rotateLeft n ^^^ rotationSum k n ^^^ k) := by rw [Function.iterate_succ_apply', ih, affineRound]
      _ = rotl1 (v.rotateLeft n) ^^^ (rotl1 (rotationSum k n) ^^^ rotl1 k) := by
          rw [rotl1_xor, rotl1_xor, BitVec.xor_assoc]
      _ = v.rotateLeft (n + 1) ^^^ rotationSum k (n + 1) := by
          rw [rotl1_rotationSum_xor, rotl1, rotateLeft_rotateLeft_one]

/-- Settles O31: over identity tables the 64-bit view carries each round to the affine round. -/
theorem identityTablesMakeEncryptAffine : Obligations.IdentityTablesMakeEncryptAffine := by
  refine ⟨fun v n _ => iterate_rotl1 v n, fun s hk ht hb hid => ⟨?round, ?cipher⟩⟩
  case round => exact ⟨_, exec_of_ready hk ht hb, block64_encRound_of_identity hid s.block⟩
  case cipher =>
    have hview : block64 ((encRound s)^[16] s.block) = (affineRound (block64 s.key))^[16] (block64 s.block) :=
      Function.Semiconj.iterate_right (block64_encRound_of_identity hid) 16 s.block
    exact ⟨_, exec_of_ready hk ht hb, hview.trans (iterate_affineRound _ _ 16)⟩

end Sys2Proof.Machine
end

section
/-! PROOFS. The decrypt path of 43_decrypt.md: what the right rotation does to the 64-bit view (R123), the inverse steps
as commands, the round and the cipher as those commands in a row, and the round trip (R127). -/

namespace Sys2Proof.Machine

/-! ## The right rotation on the 64-bit view -/

/-- A left rotation undoes the right one too: all 64 left rotations together change nothing, so the right rotation is
the other 63 of them. -/
theorem rotL_rotR (b : Bytes8) : rotL (rotR b) = b := by
  have hsplit : rotL^[64] b = rotL (rotL^[63] b) := Function.iterate_succ_apply' rotL 63 b
  have hright : rotR b = rotL^[63] b :=
    calc rotR b = rotR (rotL (rotL^[63] b)) := by rw [← hsplit, iterate_rotL_64]
      _ = rotL^[63] b := rotR_rotL _
  rw [hright, ← hsplit, iterate_rotL_64]

/-- Bit i of the word rotated right by one is the next bit of the word, that of bit 63 being bit 0. -/
theorem getLsbD_rotateRight_one (v : Quad) {i : Nat} (hi : i < 64) :
    (v.rotateRight 1).getLsbD i = v.getLsbD ((i + 1) % 64) := by
  rw [BitVec.getLsbD_rotateRight]
  by_cases h : i < 63
  · have hbit : (i + 1) % 64 = 1 + i := by omega
    simp [h, hbit]
  · obtain rfl : i = 63 := by omega
    simp

theorem rotateRight_rotateLeft_one (v : Quad) : (v.rotateLeft 1).rotateRight 1 = v := by
  refine BitVec.eq_of_getLsbD_eq fun i hi => ?_
  have hbit : ((i + 1) % 64 + (64 - 1 % 64)) % 64 = i := by omega
  rw [getLsbD_rotateRight_one _ hi, getLsbD_rotateLeft_quad v 1 (by omega), hbit]

/-- R123: the byte-level procedure is a right rotation of the 64-bit view by one bit, because the left rotation that it
undoes is a left rotation of that view (R106). -/
theorem block64_rotR (b : Bytes8) : block64 (rotR b) = (block64 b).rotateRight 1 :=
  calc block64 (rotR b) = ((block64 (rotR b)).rotateLeft 1).rotateRight 1 := (rotateRight_rotateLeft_one _).symm
    _ = (block64 b).rotateRight 1 := by rw [← block64_rotL, rotL_rotR]

/-- Settles O32: the byte-level procedure, bit by bit, and what it makes of the 64-bit view. -/
theorem rotrRotatesWholeBlockRight : Obligations.RotrRotatesWholeBlockRight :=
  ⟨decode_encode .rotr, fun s =>
    ⟨exec_of_bwr_ne (absurd · (by decide)) (absurd · (by decide)) (by decide),
      fun hb => ⟨_, exec_rotr hb, rfl, block64_rotR s.block, fun p _ hj => getLsbD_byteAt_rotR s.block p hj⟩⟩⟩

/-! ## Inverse substitution -/

theorem exec_invsub {s : State} (ht : s.tvalid = true) (hb : s.bwr = 0xFF) :
    exec .invsub s = .next (s.setBlock (substitute (s.entry .dec) s.block)) :=
  exec_of_checks_pass (absurd · (by decide)) (fun _ => ht) fun _ => hb

/-- Settles O34: the two checks in their order, and the lookup byte by byte, that of table 0 being the identity. -/
theorem invsubReplacesByEntry : Obligations.InvsubReplacesByEntry :=
  ⟨decode_encode .invsub, fun s =>
    ⟨exec_of_tvalid_false (absurd · (by decide)) (by decide),
      fun ht => exec_of_bwr_ne (absurd · (by decide)) (fun _ => ht) (by decide),
      fun ht hb => ⟨_, exec_invsub ht hb, rfl, byteAt_bytes8 _,
        (byteAt_bytes8 _ 0).trans (State.entry_zero s .dec _)⟩⟩⟩

/-! ## The steps and the round as functions of the block, and their inverses -/

theorem keyMix_keyMix (key b : Bytes8) : keyMix key (keyMix key b) = b :=
  bytes8_ext fun p => by rw [keyMix, byteAt_bytes8, keyMix, byteAt_bytes8, xor_cancel_right]

/-- Lookups that undo each other at every position give substitutions that undo each other. -/
theorem substitute_substitute {f g : Fin 8 → Byte → Byte} (h : ∀ p x, g p (f p x) = x) (b : Bytes8) :
    substitute g (substitute f b) = b :=
  bytes8_ext fun p => by rw [substitute, byteAt_bytes8, substitute, byteAt_bytes8, h]

/-- D undoes E at every position (R26). -/
theorem State.TablesInverse.dec_enc {s : State} (h : s.TablesInverse) (p : Fin 8) (x : Byte) :
    s.entry .dec p (s.entry .enc p x) = x :=
  (h p).2 x

/-- E undoes D, because every byte is an entry of the permutation E (R26). -/
theorem State.TablesInverse.enc_dec {s : State} (h : s.TablesInverse) (p : Fin 8) (x : Byte) :
    s.entry .enc p (s.entry .dec p x) = x := by
  obtain ⟨⟨_, hsurj⟩, hundo⟩ := h p
  exact Function.LeftInverse.rightInverse_of_surjective hundo hsurj x

/-- R127: a decryption round undoes an encryption round, each step undoing the last one left. -/
theorem decRound_encRound {s : State} (h : s.TablesInverse) : Function.LeftInverse (decRound s) (encRound s) :=
  fun b => by rw [decRound, encRound, rotR_rotL, substitute_substitute h.dec_enc, keyMix_keyMix]

theorem encRound_decRound {s : State} (h : s.TablesInverse) : Function.LeftInverse (encRound s) (decRound s) :=
  fun b => by rw [decRound, encRound, keyMix_keyMix, substitute_substitute h.enc_dec, rotL_rotR]

/-! ## Commands that act on the block alone -/

/-- Whatever block s holds, the command answers f of it and changes nothing else. -/
def ActsOnBlock (i : Instr) (s : State) (f : Bytes8 → Bytes8) : Prop :=
  ∀ b, exec i (s.setBlock b) = .next (s.setBlock (f b))

section Acts

variable {s : State}

theorem actsOnBlock_keymix (hk : s.kvalid = true) (hb : s.bwr = 0xFF) : ActsOnBlock .keymix s (keyMix s.key) :=
  fun b => exec_keymix (s := s.setBlock b) hk hb

theorem actsOnBlock_sub (ht : s.tvalid = true) (hb : s.bwr = 0xFF) :
    ActsOnBlock .sub s (substitute (s.entry .enc)) :=
  fun b => exec_sub (s := s.setBlock b) ht hb

theorem actsOnBlock_invsub (ht : s.tvalid = true) (hb : s.bwr = 0xFF) :
    ActsOnBlock .invsub s (substitute (s.entry .dec)) :=
  fun b => exec_invsub (s := s.setBlock b) ht hb

theorem actsOnBlock_rotl (hb : s.bwr = 0xFF) : ActsOnBlock .rotl s rotL :=
  fun b => exec_rotl (s := s.setBlock b) hb

theorem actsOnBlock_rotr (hb : s.bwr = 0xFF) : ActsOnBlock .rotr s rotR :=
  fun b => exec_rotr (s := s.setBlock b) hb

section Valid

variable (hk : s.kvalid = true) (ht : s.tvalid = true) (hb : s.bwr = 0xFF)
include hk ht hb

theorem actsOnBlock_encRound : ActsOnBlock .encRound s (encRound s) :=
  fun b => exec_of_ready (s := s.setBlock b) hk ht hb

theorem actsOnBlock_decRound : ActsOnBlock .decRound s (decRound s) :=
  fun b => exec_of_ready (s := s.setBlock b) hk ht hb

theorem actsOnBlock_encrypt : ActsOnBlock .encrypt s (encRound s)^[Config.rounds] :=
  fun b => exec_of_ready (s := s.setBlock b) hk ht hb

theorem actsOnBlock_decrypt : ActsOnBlock .decrypt s (decRound s)^[Config.rounds] :=
  fun b => exec_of_ready (s := s.setBlock b) hk ht hb

end Valid

variable {i j : Instr} {f g : Bytes8 → Bytes8}

/-- Two such commands in a row compose. -/
theorem ActsOnBlock.runCommands_pair (hi : ActsOnBlock i s f) (hj : ActsOnBlock j s g) (b : Bytes8)
    (rest : List Instr) : runCommands (i :: j :: rest) (s.setBlock b) = runCommands rest (s.setBlock (g (f b))) := by
  rw [runCommands_cons (hi b), runCommands_cons (hj (f b))]

/-- If the second function undoes the first, the two commands give the state back. -/
theorem ActsOnBlock.runCommands_undo (hi : ActsOnBlock i s f) (hj : ActsOnBlock j s g)
    (h : Function.LeftInverse g f) : runCommands [i, j] s = .next s := by
  have hpair : runCommands [i, j] s = .next (s.setBlock (g (f s.block))) := hi.runCommands_pair hj s.block []
  rwa [h s.block] at hpair

/-- A command that acts on the block by a bijection answers every block, and from one block alone. -/
theorem ActsOnBlock.existsUnique (hi : ActsOnBlock i s f) (hf : Function.Bijective f) (c : Bytes8) :
    ∃! b, exec i (s.setBlock b) = .next (s.setBlock c) := by
  have hanswer (b : Bytes8) : exec i (s.setBlock b) = .next (s.setBlock c) ↔ f b = c := by
    rw [hi b]
    exact ⟨fun h => congrArg State.block (Host.Outcome.next.inj h), fun h => by rw [h]⟩
  simpa only [hanswer] using hf.existsUnique c

end Acts

/-- Settles O33: each rotation undoes the other. -/
theorem rotationsUndoEachOther : Obligations.RotationsUndoEachOther := fun _ hb =>
  ⟨(actsOnBlock_rotl hb).runCommands_undo (actsOnBlock_rotr hb) rotR_rotL,
    (actsOnBlock_rotr hb).runCommands_undo (actsOnBlock_rotl hb) rotL_rotR⟩

/-- Settles O35: the tables are inverse both ways at every position, and the XOR of a byte undoes itself. -/
theorem stepsUndoEachOther : Obligations.StepsUndoEachOther := by
  refine fun s hb => ⟨fun hinv ht => ?tables, fun hk => ?key⟩
  case tables =>
    have htables := hinv.tablesInverse ht
    have hsub := actsOnBlock_sub ht hb
    have hinvsub := actsOnBlock_invsub ht hb
    exact ⟨hsub.runCommands_undo hinvsub (substitute_substitute htables.dec_enc),
      hinvsub.runCommands_undo hsub (substitute_substitute htables.enc_dec)⟩
  case key =>
    have hkeymix := actsOnBlock_keymix hk hb
    exact hkeymix.runCommands_undo hkeymix (keyMix_keyMix s.key)

/-! ## The round and the cipher -/

/-- Each step of the round finds key, tables and block as valid as the one before it did. -/
theorem runCommands_rotr_invsub_keymix {s : State} (hk : s.kvalid = true) (ht : s.tvalid = true)
    (hb : s.bwr = 0xFF) :
    runCommands [.rotr, .invsub, .keymix] s = .next (s.setBlock (decRound s s.block)) :=
  calc runCommands [.rotr, .invsub, .keymix] s
      = runCommands [.keymix] (s.setBlock (substitute (s.entry .dec) (rotR s.block))) :=
        (actsOnBlock_rotr hb).runCommands_pair (actsOnBlock_invsub ht hb) s.block [.keymix]
    _ = .next (s.setBlock (decRound s s.block)) := runCommands_cons (actsOnBlock_keymix hk hb _) []

/-- Settles O36: the three checks in their order, and the round as its steps in a row. -/
theorem decRoundIsRotateInvsubMix : Obligations.DecRoundIsRotateInvsubMix :=
  ⟨decode_encode .decRound, fun s => exec_of_three_checks (by decide) (by decide) (by decide) fun hk ht hb =>
    ⟨rfl, runCommands_rotr_invsub_keymix hk ht hb⟩⟩

/-- Settles O37: the three checks in their order, and the cipher as its rounds in a row. -/
theorem decryptIsSixteenRounds : Obligations.DecryptIsSixteenRounds :=
  ⟨decode_encode .decrypt, fun s => exec_of_three_checks (by decide) (by decide) (by decide) fun hk ht hb =>
    ⟨rfl, runCommands_replicate (actsOnBlock_decRound hk ht hb) Config.rounds s.block⟩⟩

/-! ## The round trip -/

/-- Settles O38: the rounds are inverse both ways, hence so are their iterates, and a function with an inverse both ways
is a bijection. -/
theorem decryptUndoesEncrypt : Obligations.DecryptUndoesEncrypt := by
  intro s hinv hk ht hb
  have hdecenc := decRound_encRound (hinv.tablesInverse ht)
  have hencdec := encRound_decRound (hinv.tablesInverse ht)
  have hundoEnc := hdecenc.iterate Config.rounds
  have hundoDec := hencdec.iterate Config.rounds
  have hencrypt := actsOnBlock_encrypt hk ht hb
  have hdecrypt := actsOnBlock_decrypt hk ht hb
  refine ⟨?round, hencrypt.runCommands_undo hdecrypt hundoEnc, hdecrypt.runCommands_undo hencrypt hundoDec,
    hencrypt.existsUnique ⟨hundoEnc.injective, hundoDec.surjective⟩,
    hdecrypt.existsUnique ⟨hundoDec.injective, hundoEnc.surjective⟩⟩
  case round => exact (actsOnBlock_encRound hk ht hb).runCommands_undo (actsOnBlock_decRound hk ht hb) hdecenc

end Sys2Proof.Machine
end

section
/-! PROOFS. The control commands of 44_control.md: NOP (R140) and ERR_CLEAR (R141). -/

namespace Sys2Proof.Machine

/-- The engine step on a pending command (R52, R176). -/
theorem step_of_command {s : State} {i : Instr} (hturn : s.engineNext) (hbusy : s.busy = true)
    (h : decode s.lcmd = .command i) : step s = finishCommand (exec i s.afterTurn) :=
  (step_of_engineNext hturn).trans (engineTurn_of_command (s := s.afterTurn) hbusy h)

theorem exec_nop (s : State) : exec .nop s = .next s := rfl

theorem exec_errClear (s : State) : exec .errClear s = .next { s with err := 0 } := rfl

/-- Settles O13: the engine step is that of any command, and NOP leaves it BUSY alone to clear. -/
theorem nopDoesNothing : Obligations.NopDoesNothing := by
  refine ⟨decode_encode .nop, exec_nop, fun s hturn hbusy hlatch => ?step⟩
  case step =>
    have hdecode : decode s.lcmd = .command .nop := decode_eq_command_iff.mpr hlatch.symm
    calc step s
        = finishCommand (exec .nop s.afterTurn) := step_of_command hturn hbusy hdecode
      _ = finishCommand (.next s.afterTurn) := congrArg finishCommand (exec_nop s.afterTurn)
      _ = .next { s.afterTurn with busy := false } := finishCommand_next s.afterTurn

/-- Settles O14: the discarded write is R33's, CMD being one of the writable registers. -/
theorem errClearClearsErr : Obligations.ErrClearClearsErr := by
  refine ⟨decode_encode .errClear, exec_errClear, fun s hbusy => ?write⟩
  case write =>
    have haddr : (0x0000 : Addr).toNat ≤ 0x0001 := by decide
    exact (hostWrite_busy_of_writable hbusy (.inl haddr) 0x0D).trans (raiseError_eq .busy s)

end Sys2Proof.Machine
end

section
/-! PROOFS. Errors (60_exceptions.md): what each shared operation makes of ERR (R152), the first failing check (R153,
R154), that ERR enters no other part of a command's result (R155), and that a recorded error stays (R156). -/

namespace Sys2Proof.Machine

/-! ## Recording an error -/

/-- A recorded error is kept: raising another one changes nothing (R152). -/
theorem raiseError_of_err_ne {s : State} (h : s.err ≠ 0) (c : ErrCode) : raiseError c s = s := by
  rw [raiseError, if_neg h]

theorem raiseError_of_err_zero {s : State} (h : s.err = 0) (c : ErrCode) : raiseError c s = s.setErr c.code := by
  rw [raiseError, if_pos h]

/-- TBL_GEN leaves ERR, or records RNG where no error was recorded (R86, R152). -/
theorem generate_err (s : State) : (generate s).err = s.err ∨ (s.err = 0 ∧ (generate s).err = 5) := by
  rcases generate_cases s with ⟨m, r, _, h⟩ | ⟨r, _, h⟩ <;> rw [h]
  case inl => exact .inl rfl
  case inr =>
    have hspoil : (spoilTables (s.setRng r)).err = s.err := rfl
    by_cases herr : s.err = 0
    · rw [raiseError_of_err_zero (hspoil.trans herr)]
      exact .inr ⟨herr, rfl⟩
    · rw [raiseError_of_err_ne (hspoil ▸ herr)]
      exact .inl hspoil

/-- Of the commands that pass their checks only ERR_CLEAR and a TBL_GEN with a draw out of range touch ERR (R150). -/
theorem commandEffect_err {i : Instr} (hi : i ≠ .errClear) (s : State) :
    (commandEffect i s).err = s.err ∨ (i = .tblGen ∧ s.err = 0 ∧ (commandEffect i s).err = 5) := by
  cases i with
  | errClear => exact absurd rfl hi
  | tblGen => exact (generate_err s).imp_right fun h => ⟨rfl, h⟩
  | nop | keyClear | keyAbsorb | encrypt | decrypt | keymix | sub | invsub | rotl | rotr | encRound | decRound =>
    exact .inl rfl

/-- The engine step on an illegal opcode (R52). -/
theorem step_of_illegal {s : State} (hturn : s.engineNext) (hbusy : s.busy = true) (h : 0x0E ≤ s.lcmd.toNat) :
    step s = .next { s.afterTurn.withError 1 with busy := false } :=
  (step_of_engineNext hturn).trans (engineTurn_of_illegal (s := s.afterTurn) hbusy (decode_of_ge h))

/-- Settles O41: the checks of a command in their order, and what its effect makes of ERR once they pass. -/
theorem firstFailingCheckIsRecorded : Obligations.FirstFailingCheckIsRecorded :=
  ⟨fun _ => step_of_illegal,
    fun _ _ => exec_of_kvalid_false,
    fun _ _ hi hk => exec_of_tvalid_false hk hi,
    fun _ _ hi hk ht => exec_of_bwr_ne hk ht hi,
    fun _ s hk ht hb hi => ⟨_, exec_of_checks_pass hk ht hb, commandEffect_err hi s⟩⟩

/-! ## Commands while an error is recorded -/

/-- Two states that agree on everything but ERR. -/
def SameButErr (t u : State) : Prop :=
  u = { t with err := u.err }

/-- The checks do not look at ERR (R154). -/
theorem firstError_setErr (n : Needs) (s : State) (e : BitVec 3) : firstError n (s.setErr e) = firstError n s := rfl

theorem raiseError_setErr (c : ErrCode) (s : State) (e : BitVec 3) :
    SameButErr (raiseError c s) (raiseError c (s.setErr e)) := by
  rw [raiseError_eq, raiseError_eq]
  rfl

/-- TBL_GEN draws and stores whatever ERR is (R80, R86). -/
theorem generate_setErr (s : State) (e : BitVec 3) : SameButErr (generate s) (generate (s.setErr e)) := by
  rw [generate, generate, State.setErr_tables, State.setErr_rng]
  rcases genTables generatedPositions s.tables s.rng with ⟨_ | m, r⟩
  · exact raiseError_setErr .rng (spoilTables (s.setRng r)) e
  · rfl

/-- The new block, key or tables are computed from registers other than ERR. -/
theorem commandEffect_setErr (i : Instr) (s : State) (e : BitVec 3) :
    SameButErr (commandEffect i s) (commandEffect i (s.setErr e)) := by
  cases i with
  | tblGen => exact generate_setErr s e
  | nop | keyClear | keyAbsorb | errClear | encrypt | decrypt | keymix | sub | invsub | rotl | rotr | encRound
  | decRound => rfl

/-- A command behind its checks agrees but for ERR if its act does. -/
theorem runChecked_setErr {act : State → State} (hact : ∀ s e, SameButErr (act s) (act (s.setErr e))) (n : Needs)
    (s : State) (e : BitVec 3) : SameButErr (runChecked n act s) (runChecked n act (s.setErr e)) := by
  rw [runChecked, runChecked, firstError_setErr]
  cases firstError n s with
  | none => exact hact s e
  | some c => exact raiseError_setErr c s e

/-- Settles O43: a command is its effect behind its checks, and neither looks at ERR. -/
theorem errDoesNotChangeCommands : Obligations.ErrDoesNotChangeCommands := fun i s e =>
  ⟨_, _, exec_eq_runChecked i s, exec_eq_runChecked i (s.setErr e),
    runChecked_setErr (commandEffect_setErr i) (commandNeeds i) s e⟩

/-! ## A recorded error stays -/

section Recorded

variable {s t : State} (herr : s.err ≠ 0)

include herr

/-- No command but ERR_CLEAR changes a recorded error (R152, R156). -/
theorem exec_err_of_ne {i : Instr} (hi : i ≠ .errClear) (h : exec i s = .next t) : t.err = s.err := by
  obtain rfl := Host.Outcome.next.inj ((exec_eq_runChecked i s).symm.trans h)
  rcases runChecked_cases (commandNeeds i) (commandEffect i) s with ⟨c, _, hrun⟩ | ⟨_, hrun⟩ <;> rw [hrun]
  · rw [raiseError_of_err_ne herr]
  · exact (commandEffect_err hi s).resolve_right fun ⟨_, hzero, _⟩ => herr hzero

/-- No host write changes a recorded error (R33, R152). -/
theorem hostWrite_err_of_ne (a : Addr) (v : Byte) : (hostWrite a v s).err = s.err := by
  rcases hostWrite_cases a v s with ⟨_, h⟩ | h | ⟨_, h⟩ | ⟨_, h⟩ | ⟨_, p, _, h⟩ <;> rw [h]
  case inl => rw [raiseError_of_err_ne herr]
  all_goals rfl

/-- No turn of the host changes a recorded error. -/
theorem hostTurn_err_of_ne (h : hostTurn s = .next t) : t.err = s.err := by
  rcases hostTurn_cases h with rfl | ⟨a, v, h', rfl⟩ | ⟨h', rfl⟩ | ⟨a, h', rfl⟩
  · rfl
  · exact hostWrite_err_of_ne herr a v
  · rfl
  · obtain ⟨n, hread⟩ := recordedRead_snd a s
    rw [hread]
    rfl

/-- A turn of the engine that changes a recorded error performs ERR_CLEAR (R156). -/
theorem engineTurn_err_of_ne (h : engineTurn s = .next t) (hne : t.err ≠ s.err) :
    t.err = 0 ∧ s.busy = true ∧ decode s.lcmd = .command .errClear := by
  rcases engineTurn_cases s with ⟨_, hs⟩ | ⟨hbusy, i, hdecode, hs⟩ | ⟨_, b, _, hs⟩ <;> rw [hs] at h
  · obtain rfl := Host.Outcome.next.inj h
    exact absurd rfl hne
  · rw [exec_eq_runChecked, finishCommand_next] at h
    obtain rfl := Host.Outcome.next.inj h
    by_cases hi : i = .errClear
    · subst hi
      exact ⟨rfl, hbusy, hdecode⟩
    · have hkeep := exec_err_of_ne herr hi (exec_eq_runChecked i s)
      exact absurd hkeep hne
  · obtain rfl := Host.Outcome.next.inj h
    rw [raiseError_of_err_ne herr] at hne
    exact absurd rfl hne

end Recorded

theorem nextTurn_eq_reset_iff {s : State} : nextTurn s = .reset ↔ s.resetNext := by
  unfold nextTurn State.resetNext
  cases s.sched with
  | nil => cases s.busy <;> simp
  | cons t rest => simp

/-- Settles O42: the host's turn keeps a recorded error, the engine's changes it by ERR_CLEAR alone. -/
theorem errIsSticky : Obligations.ErrIsSticky := by
  intro s t hstep herr hne
  rcases step_cases s with ⟨hturn, hs⟩ | ⟨_, hs⟩ | ⟨hturn, hs⟩ <;> rw [hs] at hstep
  case inl =>
    obtain ⟨hzero, hbusy, hdecode⟩ := engineTurn_err_of_ne (s := s.popTurn) herr hstep hne
    exact ⟨hzero, .inr ⟨nextTurn_eq_engine_iff.mp hturn, hbusy, hdecode⟩⟩
  case inr.inl => exact absurd (hostTurn_err_of_ne (s := s.popTurn) herr hstep) hne
  case inr.inr =>
    obtain rfl := Host.Outcome.next.inj hstep
    exact ⟨rfl, .inl (nextTurn_eq_reset_iff.mp hturn)⟩

end Sys2Proof.Machine
end

section
/-! PROOFS. With a well-formed host script no turn stops the machine (R155, log entry 8): commands and host accesses
never do, and every branch of the script has its label. -/

namespace Sys2Proof.Machine

/-- A turn goes on, and the host keeps its script. -/
def GoesOn (o : Host.Outcome State Fault Refusal) (s : State) : Prop :=
  ∃ t, o = .next t ∧ t.host.script = s.host.script

/-- A label of the script has a place in it (R56). -/
theorem exists_labelFrom_eq_some {l : Nat} {script : List HostStmt} (h : .label l ∈ script) (n : Nat) :
    ∃ k, labelFrom l n script = some k := by
  induction script generalizing n with
  | nil => cases h
  | cons st rest ih =>
    by_cases hst : st = .label l
    · exact ⟨n, if_pos hst⟩
    · have hrest : .label l ∈ rest := (List.mem_cons.mp h).resolve_left (Ne.symm hst)
      rw [labelFrom, if_neg hst]
      exact ih hrest (n + 1)

/-- A branch to a label of the script goes on, taken or not. -/
theorem branchTo_goesOn {l : Nat} {s : State} (h : .label l ∈ s.host.script) (taken : Bool) :
    GoesOn (branchTo l taken s) s := by
  cases taken with
  | false => exact ⟨_, branchTo_false l s, rfl⟩
  | true =>
    obtain ⟨k, hk⟩ := exists_labelFrom_eq_some h 0
    exact ⟨s.hostGoto k, by simp [branchTo, hk], rfl⟩

theorem recordedRead_script (a : Addr) (s : State) : (recordedRead a s).2.host.script = s.host.script := by
  obtain ⟨n, h⟩ := recordedRead_snd a s
  rw [h]

/-- A statement whose branch, if it is one, has its label goes on (R56). -/
theorem hostStmt_goesOn {st : HostStmt} {s : State} (h : targetKnown (scriptLabels s.host.script) st = true) :
    GoesOn (hostStmt st s) s := by
  have hwrite (a : Addr) (v : Byte) : (hostWrite a v s).host.script = s.host.script := by
    obtain ⟨_, _, _, _, _, hhost, _⟩ := hostWrite_frame a v s
    rw [hhost]
  cases st with
  | wr a v => exact ⟨_, rfl, hwrite a v⟩
  | cmd i => exact ⟨_, rfl, hwrite 0x0000 (encode i)⟩
  | label l => exact ⟨_, rfl, rfl⟩
  | rd a => exact ⟨_, rfl, recordedRead_script a s⟩
  | check => exact ⟨_, rfl, recordedRead_script 0x0002 s⟩
  | bnz l a mask =>
    have hlabel : .label l ∈ (recordedRead a s).2.host.script := by
      rw [recordedRead_script]
      exact mem_scriptLabels.mp (List.contains_iff_mem.mp h)
    obtain ⟨t, ht, hscript⟩ := branchTo_goesOn hlabel (decide ((recordedRead a s).1 &&& mask ≠ 0))
    exact ⟨t, ht, hscript.trans (recordedRead_script a s)⟩

theorem hostTurn_goesOn {s : State} (h : scriptWellFormed s.host.script = true) : GoesOn (hostTurn s) s := by
  unfold hostTurn
  split
  · exact ⟨s, rfl, rfl⟩
  · split
    · next st hst => exact hostStmt_goesOn ((scriptWellFormed_iff.mp h).2 st (List.mem_of_getElem? hst))
    · exact ⟨s, rfl, rfl⟩

/-- The engine's turn goes on in every state: no command and no illegal opcode stops the machine (R155). -/
theorem engineTurn_goesOn (s : State) : GoesOn (engineTurn s) s := by
  rcases engineTurn_cases s with ⟨_, hs⟩ | ⟨_, i, _, hs⟩ | ⟨_, b, _, hs⟩ <;> rw [hs]
  · exact ⟨s, rfl, rfl⟩
  · obtain ⟨t, ht, _, _, _, _, hhost, _⟩ := commandsWriteOnlyTheirState i s
    rw [ht]
    exact ⟨_, rfl, congrArg HostAgent.script hhost⟩
  · rw [raiseError_eq]
    exact ⟨_, rfl, rfl⟩

/-- Settles O9: the turn of each agent goes on. -/
theorem wellFormedScriptNeverStops : Obligations.WellFormedScriptNeverStops := by
  intro s h
  rcases step_cases s with ⟨_, hs⟩ | ⟨_, hs⟩ | ⟨_, hs⟩ <;> rw [hs]
  · exact engineTurn_goesOn s.popTurn
  · exact hostTurn_goesOn (s := s.popTurn) h
  · exact ⟨_, rfl, rfl⟩

end Sys2Proof.Machine
end

section
/-! PROOFS. Single turns (R170 to R172, R176): the engine's turn on a pending command and on none, the turn of a host
with nothing to do, and the reset input's. -/

namespace Sys2Proof.Machine

theorem engineTurn_of_idle {s : State} (hidle : s.busy = false) : engineTurn s = .next s := by
  simp [engineTurn, hidle]

/-- Settles O4: the engine step on a pending command, its answer then losing BUSY. -/
theorem stepRunsDecodedCommand : Obligations.StepRunsDecodedCommand := by
  intro s i hturn hbusy hdecode _
  have hstep := step_of_command hturn hbusy hdecode
  refine ⟨hstep, fun t hexec => ?_⟩
  rw [hstep, hexec, finishCommand_next]
  rfl

/-- Settles O6: the turn is used up, and then the engine finds BUSY = 0. -/
theorem idleEngineHasNoStep : Obligations.IdleEngineHasNoStep := fun s hturn hidle =>
  (step_of_engineNext hturn).trans (engineTurn_of_idle (s := s.afterTurn) hidle)

/-- A host whose script has failed, or is at its end, makes no access (R56, log entry 9). -/
theorem hostTurn_of_nothing_ahead {s : State} (h : s.host.failed = true ∨ s.host.script.length ≤ s.host.pos) :
    hostTurn s = .next s := by
  rcases h with hfailed | hend
  · rw [hostTurn, if_pos hfailed]
  · rw [hostTurn, List.getElem?_eq_none hend]
    split <;> rfl

/-- Settles O7: at reset it is the turn of a host with an empty script and no turn is listed, so even the interleaving
stays. -/
theorem idleMachineWaitsForHost : Obligations.IdleMachineWaitsForHost := by
  have hwait (s : State) (hturn : s.hostNext) (h : s.host.failed = true ∨ s.host.script.length ≤ s.host.pos) :
      step s = .next s.afterTurn :=
    (step_of_hostNext hturn).trans (hostTurn_of_nothing_ahead (s := s.afterTurn) h)
  exact ⟨hwait State.reset (.inr ⟨rfl, rfl⟩) (.inr le_rfl), hwait⟩

theorem step_of_resetNext {s : State} (h : s.resetNext) : step s = .next (assertReset s.popTurn) := by
  rw [step, nextTurn_eq_reset_iff.mpr h]

/-- Settles O48: the reset input keeps these fields as they are. -/
theorem resetInputLeavesOtherAgents : Obligations.ResetInputLeavesOtherAgents := fun _ h =>
  ⟨_, step_of_resetNext h, rfl, rfl, rfl, rfl⟩

/-- Settles O11: the reset state is the reset input's answer on itself. -/
theorem resetMeetsTheInvariant : Obligations.ResetMeetsTheInvariant :=
  assertReset_inv State.reset

/-- Settles O46: with BWR, KVALID and TVALID 0 every read of the block, the key and tables 1 to 7 is any. -/
theorem resetStateIsAsStated : Obligations.ResetStateIsAsStated := by
  refine ⟨rfl, rfl, rfl, rfl, rfl, rfl, rfl, rfl, rfl, State.entry_zero _, fun a ha => ?_⟩
  rcases ha with ⟨hlo, hhi⟩ | ⟨hlo, hhi⟩
  · have hat := hostReg_standsAt a
    refine hostRead_of_none hat ?_
    generalize hostReg a = r at hat ⊢
    cases r with simp only [HostReg.StandsAt] at hat
    | block p | key p => simp [readValue, State.reset]
    | table p d x =>
      have := tableAddr_range p d x
      omega
    | cmd | arg | status | kptr | bwr | reserved => omega
  · exact hostRead_generated_invalid rfl hlo hhi

end Sys2Proof.Machine
end

section
/-! PROOFS. The two ways a TBL_GEN can end, told by its draws (R83, R85, R86). -/

namespace Sys2Proof.Machine

/-- The draws of a TBL_GEN are all in range, or one is the first that is not (R83, R86). -/
theorem drawsInRange_or_first_out (r : RandomSource) :
    DrawsInRange r Config.drawsPerGen ∨
      ∃ n < Config.drawsPerGen, DrawsInRange r n ∧ drawBound n < (drawAnswer r n).toNat := by
  suffices h : ∀ m ≤ Config.drawsPerGen, DrawsInRange r m ∨
      ∃ n < Config.drawsPerGen, DrawsInRange r n ∧ drawBound n < (drawAnswer r n).toNat from h _ le_rfl
  intro m hm
  induction m with
  | zero => exact .inl fun k hk => absurd hk (Nat.not_lt_zero k)
  | succ m ih =>
    rcases ih (Nat.le_of_succ_le hm) with hin | hout
    · rcases lt_or_ge (drawBound m) (drawAnswer r m).toNat with hlt | hle
      · exact .inr ⟨m, hm, hin, hlt⟩
      · exact .inl fun k hk => (Nat.lt_succ_iff_lt_or_eq.mp hk).elim (hin k) fun e => e ▸ hle
    · exact .inr hout

theorem generate_of_inRange {s : State} (h : DrawsInRange s.rng Config.drawsPerGen) : generate s = s.generated :=
  Host.Outcome.next.inj (exec_tblGen_of_inRange h)

theorem generate_of_outOfRange {s : State} {n : Nat} (hn : n < Config.drawsPerGen) (h : DrawsInRange s.rng n)
    (hout : drawBound n < (drawAnswer s.rng n).toNat) :
    generate s = raiseError .rng (spoilTables (s.setRng (s.rng.afterDraws (n + 1)))) :=
  Host.Outcome.next.inj (exec_tblGen_of_outOfRange hn h hout)

end Sys2Proof.Machine
end

section
/-! PROOFS. What the spec leaves unspecified is never observable (R171, R34 to R36, R20): each operation, each host
access, each command and each agent's turn carries two states that look the same to the host to states that again do. -/

namespace Sys2Proof.Machine

section Same

variable {s t : State} (h : SameVisible s t)

include h

/-! ## The registers that look the same -/

theorem SameVisible.bvalid_eq : s.bvalid = t.bvalid :=
  congrArg (· == 0xFF) h.bwr

theorem SameVisible.status_eq : s.status = t.status := by
  rw [State.status, State.status, h.err, h.bvalid_eq, h.tvalid, h.kvalid, h.busy]

/-- With BVALID = 1 every byte of the block has been written (R12). -/
theorem SameVisible.block_eq (hb : s.bvalid = true) : s.block = t.block :=
  bytes8_ext fun p => h.block p ((bvalid_iff s).mp hb p)

theorem SameVisible.entry_eq (ht : s.tvalid = true) : s.entry = t.entry := by
  funext d p x
  exact h.tables ht d p x

theorem SameVisible.firstError_eq (n : Needs) : firstError n s = firstError n t := by
  rw [firstError, firstError, h.kvalid, h.tvalid, h.bvalid_eq]

/-! ## The named updates -/

theorem SameVisible.setErr (e : BitVec 3) : SameVisible (s.setErr e) (t.setErr e) :=
  { h with err := rfl }

theorem SameVisible.setArg (v : Byte) : SameVisible (s.setArg v) (t.setArg v) :=
  { h with arg := rfl }

theorem SameVisible.setKey {k l : Bytes8} {p q : BitVec 3} {v w : Bool} (hk : k = l) (hp : p = q) (hv : v = w) :
    SameVisible (s.setKey k p v) (t.setKey l q w) :=
  { h with kptr := hp, kvalid := hv, key := fun _ => hk }

/-- Tables stored as valid must read alike; stored as invalid they may hold anything. -/
theorem SameVisible.setTables {m n : Memory} {v : Bool}
    (hread : v = true → ∀ p ≠ 0, ∀ d x, Memory.read m (tableAddr p d x) = Memory.read n (tableAddr p d x)) :
    SameVisible (s.setTables m v) (t.setTables n v) where
  __ := h
  tvalid := rfl
  tables hv d p x := by
    by_cases hp : p = 0
    · rw [hp, State.entry_zero, State.entry_zero]
    · rw [State.entry_of_ne hp, State.entry_of_ne hp]
      exact hread hv p hp d x

theorem SameVisible.setBlock {b c : Bytes8} (hbc : b = c) : SameVisible (s.setBlock b) (t.setBlock c) :=
  { h with block := fun p _ => congrArg (byteAt · p) hbc }

theorem SameVisible.setRng {q r : RandomSource} (hr : q = r) : SameVisible (s.setRng q) (t.setRng r) :=
  { h with rng := hr }

theorem SameVisible.setFreeCtr {m n : Nat} (hn : m = n) : SameVisible (s.setFreeCtr m) (t.setFreeCtr n) :=
  { h with freeCtr := hn }

theorem SameVisible.latch (v : Byte) : SameVisible (s.latch v) (t.latch v) :=
  { h with busy := rfl, lcmd := fun _ => rfl }

/-- Once BUSY = 0 the latch is out of sight (R20). -/
theorem SameVisible.clearBusy : SameVisible s.clearBusy t.clearBusy :=
  { h with busy := rfl, lcmd := fun hb => absurd hb Bool.false_ne_true }

theorem SameVisible.popTurn : SameVisible s.popTurn t.popTurn :=
  { h with sched := congrArg List.tail h.sched }

/-- The host agent moves in the same way in both states, because it is the same agent. -/
theorem SameVisible.moveHost (f : HostAgent → HostAgent) : SameVisible (s.setHost (f s.host)) (t.setHost (f t.host)) :=
  { h with host := congrArg f h.host }

theorem SameVisible.hostGoto (n : Nat) : SameVisible (s.hostGoto n) (t.hostGoto n) :=
  h.moveHost fun g => { g with pos := n }

theorem SameVisible.hostAdvance : SameVisible s.hostAdvance t.hostAdvance :=
  h.moveHost fun g => { g with pos := g.pos + 1 }

/-- A loaded byte is the one written, and a byte written earlier looked the same before (R11). -/
theorem SameVisible.loadByte (p : Fin 8) (v : Byte) : SameVisible (s.loadByte p v) (t.loadByte p v) where
  __ := h
  bwr := congrArg (· ||| BitVec.twoPow 8 p.val) h.bwr
  block q hq := by
    rw [byteAt_loadByte, byteAt_loadByte]
    split
    · rfl
    · next hne =>
      rw [bwr_loadByte, decide_eq_false hne, Bool.false_or] at hq
      exact h.block q hq

/-- The reset input leaves nothing of the engine's state in sight (R171). -/
theorem SameVisible.assertReset : SameVisible (assertReset s) (assertReset t) where
  bwr := rfl
  kptr := rfl
  kvalid := rfl
  tvalid := rfl
  arg := rfl
  busy := rfl
  err := rfl
  host := h.host
  sched := h.sched
  rng := h.rng
  freeCtr := h.freeCtr
  lcmd _ := rfl
  block _ _ := rfl
  key _ := rfl
  tables _ _ _ _ := rfl

/-! ## The commands -/

theorem SameVisible.raiseError (c : ErrCode) : SameVisible (raiseError c s) (raiseError c t) := by
  by_cases herr : s.err = 0
  · rw [raiseError_of_err_zero herr, raiseError_of_err_zero (h.err ▸ herr)]
    exact h.setErr c.code
  · rw [raiseError_of_err_ne herr, raiseError_of_err_ne (h.err ▸ herr)]
    exact h

theorem SameVisible.absorbByte (hk : s.kvalid = true) : SameVisible (absorbByte s) (absorbByte t) := by
  refine h.setKey ?_ (congrArg (· + 1) h.kptr) h.kvalid
  rw [h.key hk, h.kptr, State.passByte, State.passByte, h.arg]

/-- Spoiled tables are invalid, so what they hold is out of sight (R86). -/
theorem SameVisible.spoilTables : SameVisible (spoilTables s) (spoilTables t) :=
  (h.setTables fun hv => absurd hv Bool.false_ne_true).setFreeCtr (congrArg (· + 0xE00) h.freeCtr)

/-- Generated tables are made of the draws alone, whatever stood in their place (R82). -/
theorem SameVisible.generated : SameVisible s.generated t.generated := by
  refine (h.setTables fun _ p hp d x => ?_).setRng (congrArg (·.afterDraws 1785) h.rng)
  have hlast : p.val ≤ 7 := Nat.le_of_lt_succ p.isLt
  obtain ⟨hsenc, hsdec⟩ := storedTables_read s.rng s.tables le_rfl hp hlast x
  obtain ⟨htenc, htdec⟩ := storedTables_read t.rng t.tables le_rfl hp hlast x
  cases d with
  | enc => rw [hsenc, htenc, h.rng]
  | dec => rw [hsdec, htdec, h.rng]

/-- The same draws end TBL_GEN in the same way (R85, R86). -/
theorem SameVisible.generate : SameVisible (generate s) (generate t) := by
  rcases drawsInRange_or_first_out s.rng with hin | ⟨n, hn, hin, hout⟩
  · rw [generate_of_inRange hin, generate_of_inRange (h.rng ▸ hin)]
    exact h.generated
  · rw [generate_of_outOfRange hn hin hout, generate_of_outOfRange hn (h.rng ▸ hin) (h.rng ▸ hout)]
    exact (h.setRng (congrArg (·.afterDraws (n + 1)) h.rng)).spoilTables.raiseError .rng

/-- A command whose checks have passed looks only at what looks the same: its checks are of the flags that bring its
operands in sight. -/
theorem SameVisible.commandEffect {i : Instr} (hpass : firstError (commandNeeds i) s = none) :
    SameVisible (commandEffect i s) (commandEffect i t) := by
  obtain ⟨hkey, htables, hblock⟩ := (firstError_eq_none_iff _ s).mp hpass
  have hentry : i ∈ tableCommands → s.entry = t.entry := fun hi => h.entry_eq (htables (decide_eq_true hi))
  have hkeys : i ∈ keyCommands → s.key = t.key := fun hi => h.key (hkey (decide_eq_true hi))
  have hblocks : i ∈ blockCommands → s.block = t.block := fun hi => h.block_eq (hblock (decide_eq_true hi))
  have henc (hi : i ∈ tableCommands) (hi' : i ∈ keyCommands) : encRound s = encRound t := by
    funext b
    rw [encRound, encRound, hentry hi, hkeys hi']
  have hdec (hi : i ∈ tableCommands) (hi' : i ∈ keyCommands) : decRound s = decRound t := by
    funext b
    rw [decRound, decRound, hentry hi, hkeys hi']
  cases i with
  | nop => exact h
  | errClear => exact h.setErr 0
  | keyClear => exact h.setKey rfl rfl rfl
  | keyAbsorb => exact h.absorbByte (hkey rfl)
  | tblGen => exact h.generate
  | keymix => exact h.setBlock (by rw [hkeys (by decide), hblocks (by decide)])
  | sub | invsub => exact h.setBlock (by rw [hentry (by decide), hblocks (by decide)])
  | rotl | rotr => exact h.setBlock (by rw [hblocks (by decide)])
  | encRound | encrypt => exact h.setBlock (by rw [henc (by decide) (by decide), hblocks (by decide)])
  | decRound | decrypt => exact h.setBlock (by rw [hdec (by decide) (by decide), hblocks (by decide)])

theorem SameVisible.runChecked (i : Instr) :
    SameVisible (runChecked (commandNeeds i) (Machine.commandEffect i) s)
      (runChecked (commandNeeds i) (Machine.commandEffect i) t) := by
  rw [Machine.runChecked, Machine.runChecked, ← h.firstError_eq]
  cases hf : firstError (commandNeeds i) s with
  | none => exact h.commandEffect hf
  | some c => exact h.raiseError c

/-! ## The host's accesses -/

/-- A read gives a definite value only of what looks the same (R34 to R36). -/
theorem SameVisible.readValue_eq (r : HostReg) : readValue r s = readValue r t := by
  cases r with
  | cmd | reserved => rfl
  | arg => exact congrArg some h.arg
  | status => exact congrArg some h.status_eq
  | bwr => exact congrArg some h.bwr
  | kptr => rw [readValue, readValue, h.busy, h.kptr]
  | block p =>
    rw [readValue, readValue, ← h.busy, ← h.bwr]
    refine ite_congr rfl (fun hif => congrArg some (h.block p ?_)) fun _ => rfl
    exact (Bool.and_eq_true_iff.mp hif).2
  | key p =>
    rw [readValue, readValue, ← h.busy, ← h.kvalid]
    refine ite_congr rfl (fun hif => congrArg (fun k => some (byteAt k p)) (h.key ?_)) fun _ => rfl
    exact (Bool.and_eq_true_iff.mp hif).2
  | table p d x =>
    rw [readValue, readValue, ← h.busy, ← h.tvalid]
    refine ite_congr rfl (fun hif => congrArg some ?_) fun _ => rfl
    rcases Bool.or_eq_true_iff.mp (Bool.and_eq_true_iff.mp hif).2 with hp | ht
    · rw [of_decide_eq_true hp, State.entry_zero, State.entry_zero]
    · exact h.tables ht d p x

theorem SameVisible.hostRead (a : Addr) :
    (hostRead a s).1 = (hostRead a t).1 ∧ SameVisible (hostRead a s).2 (hostRead a t).2 := by
  rw [Machine.hostRead, Machine.hostRead, ← h.readValue_eq]
  cases readValue (hostReg a) s with
  | some v => exact ⟨rfl, h⟩
  | none => exact ⟨congrArg Config.freeByte h.freeCtr, h.setFreeCtr (congrArg (· + 1) h.freeCtr)⟩

theorem SameVisible.recordedRead (a : Addr) :
    (recordedRead a s).1 = (recordedRead a t).1 ∧ SameVisible (recordedRead a s).2 (recordedRead a t).2 := by
  obtain ⟨hvalue, hstate⟩ := h.hostRead a
  rw [recordedRead_eq, recordedRead_eq, ← hvalue]
  exact ⟨rfl, hstate.moveHost fun g => { g with reads := g.reads ++ [(a, (Machine.hostRead a s).1)] }⟩

theorem SameVisible.hostWrite (a : Addr) (v : Byte) : SameVisible (hostWrite a v s) (hostWrite a v t) := by
  rw [Machine.hostWrite, Machine.hostWrite, ← h.busy]
  cases s.busy with
  | true =>
    cases hostReg a with
    | cmd | arg | block p => exact h.raiseError .busy
    | status | kptr | bwr | key p | table p d x | reserved => exact h
  | false =>
    cases hostReg a with
    | cmd => exact h.latch v
    | arg => exact h.setArg v
    | block p => exact h.loadByte p v
    | status | kptr | bwr | key p | table p d x | reserved => exact h

end Same

/-! ## The turns -/

/-- `check` is the recorded read of STATUS, and then the host marks whether it failed (R57). -/
theorem hostStmt_check (s : State) :
    hostStmt .check s =
      .next (((recordedRead 0x0002 s).2.setHost { (recordedRead 0x0002 s).2.host with
        failed := decide ((recordedRead 0x0002 s).1 &&& 0x70 ≠ 0) }).hostAdvance) := rfl

/-- Two turns that the host cannot tell apart: next states that look the same, or the same fault. No turn is refused. -/
inductive SameOutcome : Host.Outcome State Fault Refusal → Host.Outcome State Fault Refusal → Prop where
  | next {s t : State} (h : SameVisible s t) : SameOutcome (.next s) (.next t)
  | fault (f : Fault) : SameOutcome (.fault f) (.fault f)

section Turns

variable {s t : State} (h : SameVisible s t)

include h

theorem SameVisible.branchTo (l : Nat) (taken : Bool) : SameOutcome (branchTo l taken s) (branchTo l taken t) := by
  cases taken with
  | false => exact .next h.hostAdvance
  | true =>
    simp only [Machine.branchTo, ← h.host, if_true]
    cases labelFrom l 0 s.host.script with
    | some k => exact .next (h.hostGoto k)
    | none => exact .fault _

theorem SameVisible.hostStmt (st : HostStmt) : SameOutcome (hostStmt st s) (hostStmt st t) := by
  cases st with
  | wr a v => exact .next (h.hostWrite a v).hostAdvance
  | cmd i => exact .next (h.hostWrite 0x0000 (encode i)).hostAdvance
  | label l => exact .next h.hostAdvance
  | rd a => exact .next (h.recordedRead a).2.hostAdvance
  | bnz l a mask =>
    obtain ⟨hvalue, hstate⟩ := h.recordedRead a
    rw [Machine.hostStmt, Machine.hostStmt, ← hvalue]
    exact hstate.branchTo l _
  | check =>
    obtain ⟨hvalue, hstate⟩ := h.recordedRead 0x0002
    rw [hostStmt_check, hostStmt_check, ← hvalue]
    exact .next (hstate.moveHost fun g =>
      { g with failed := decide ((Machine.recordedRead 0x0002 s).1 &&& 0x70 ≠ 0) }).hostAdvance

theorem SameVisible.hostTurn : SameOutcome (hostTurn s) (hostTurn t) := by
  rw [Machine.hostTurn, Machine.hostTurn, ← h.host]
  split
  · exact .next h
  · cases s.host.script[s.host.pos]? with
    | some st => exact h.hostStmt st
    | none => exact .next h

theorem SameVisible.engineTurn : SameOutcome (engineTurn s) (engineTurn t) := by
  rw [Machine.engineTurn, Machine.engineTurn, ← h.busy]
  cases hbusy : s.busy with
  | false => exact .next h
  | true =>
    rw [← h.lcmd hbusy]
    cases decode s.lcmd with
    | command i =>
      simp only [exec_eq_runChecked]
      exact .next (h.runChecked i).clearBusy
    | illegal b => exact .next (h.raiseError .illegal).clearBusy

theorem SameVisible.nextTurn_eq : nextTurn s = nextTurn t := by
  rw [nextTurn, nextTurn, h.sched, h.busy]

theorem SameVisible.step : SameOutcome (step s) (step t) := by
  rw [Machine.step, Machine.step, ← h.nextTurn_eq]
  cases nextTurn s with
  | engine => exact h.popTurn.engineTurn
  | host => exact h.popTurn.hostTurn
  | reset => exact .next h.popTurn.assertReset

end Turns

/-- Settles O12: the turn of each agent keeps what looks the same, and no turn looks at anything else. -/
theorem unspecifiedDataIsNeverObservable : Obligations.UnspecifiedDataIsNeverObservable := by
  intro s t h
  have hstep := h.step
  refine ⟨fun s' hs => ?next, fun f hs => ?fault⟩ <;> rw [hs] at hstep
  case next =>
    generalize step t = o at hstep
    cases hstep with
    | next h' => exact ⟨_, rfl, h'⟩
  case fault =>
    generalize step t = o at hstep
    cases hstep
    rfl

end Sys2Proof.Machine
end

section
/-! PROOFS. What a turn keeps and what runs come to (R170, R176, R180): KVALID and BWR over every turn but the reset
input's, a pending command waiting for the engine, and a run that has ended. -/

namespace Sys2Proof.Machine

/-! ## KVALID and BWR -/

/-- KVALID and the bits of BWR that are 1 in s are 1 in t. -/
def KeepsValid (s t : State) : Prop :=
  (s.kvalid = true → t.kvalid = true) ∧ ∀ p : Fin 8, s.bwr.getLsbD p.val = true → t.bwr.getLsbD p.val = true

theorem KeepsValid.of_eq {s t : State} (hk : t.kvalid = s.kvalid) (hb : t.bwr = s.bwr) : KeepsValid s t :=
  ⟨fun h => hk.trans h, fun _ h => hb ▸ h⟩

/-- KEY_CLEAR sets KVALID, and no command else writes it or BWR (R70). -/
theorem exec_keepsValid {i : Instr} {s t : State} (hexec : exec i s = .next t) : KeepsValid s t := by
  obtain ⟨u, hu, hbwr, _, _, _, _, _, _, _, hother, hclear, _⟩ := commandsWriteOnlyTheirState i s
  obtain rfl := Host.Outcome.next.inj (hexec.symm.trans hu)
  by_cases hi : i = .keyClear
  · exact ⟨fun _ => hclear hi, fun _ h => hbwr ▸ h⟩
  · exact .of_eq (hother hi) hbwr

theorem engineTurn_keepsValid {s t : State} (hturn : engineTurn s = .next t) : KeepsValid s t := by
  rcases engineTurn_cases s with ⟨_, hs⟩ | ⟨_, i, _, hs⟩ | ⟨_, b, _, hs⟩ <;> rw [hs] at hturn
  · exact Host.Outcome.next.inj hturn ▸ .of_eq rfl rfl
  · rw [exec_eq_runChecked, finishCommand_next] at hturn
    have hkeep := exec_keepsValid (exec_eq_runChecked i s)
    exact Host.Outcome.next.inj hturn ▸ hkeep
  · rw [raiseError_eq] at hturn
    exact Host.Outcome.next.inj hturn ▸ .of_eq rfl rfl

/-- A write to BLOCK sets a bit of BWR, and no other write touches KVALID or BWR (R32, R33). -/
theorem hostWrite_keepsValid (a : Addr) (v : Byte) (s : State) : KeepsValid s (hostWrite a v s) := by
  rcases hostWrite_cases a v s with ⟨_, h⟩ | h | ⟨_, h⟩ | ⟨_, h⟩ | ⟨_, p, _, h⟩ <;> rw [h]
  · rw [raiseError_eq]
    exact .of_eq rfl rfl
  · exact .of_eq rfl rfl
  · exact .of_eq rfl rfl
  · exact .of_eq rfl rfl
  · exact ⟨fun hk => hk, fun q hq => by rw [bwr_loadByte, hq, Bool.or_true]⟩

theorem hostTurn_keepsValid {s t : State} (hturn : hostTurn s = .next t) : KeepsValid s t := by
  rcases hostTurn_cases hturn with rfl | ⟨a, v, h', rfl⟩ | ⟨h', rfl⟩ | ⟨a, h', rfl⟩
  · exact .of_eq rfl rfl
  · exact hostWrite_keepsValid a v s
  · exact .of_eq rfl rfl
  · obtain ⟨n, hread⟩ := recordedRead_snd a s
    rw [hread]
    exact .of_eq rfl rfl

/-- STATUS is a view of registers that the reset input sets (R23, R171). -/
theorem assertReset_status (s : State) : (assertReset s).status = 0x00 := by
  show State.reset.status = 0x00
  rfl

/-- Settles O47: the reset input's answer, and the turns of the other two agents. -/
theorem onlyResetClearsKvalidAndBwr : Obligations.OnlyResetClearsKvalidAndBwr := by
  refine ⟨fun s h => ⟨_, step_of_resetNext h, rfl, rfl, rfl, rfl, rfl, rfl, rfl, rfl, assertReset_status _,
    rfl⟩, fun s t hstep hreset => ?other⟩
  case other =>
    rcases step_cases s with ⟨_, hs⟩ | ⟨_, hs⟩ | ⟨hturn, _⟩
    · exact engineTurn_keepsValid (s := s.popTurn) (hs.symm.trans hstep)
    · exact hostTurn_keepsValid (s := s.popTurn) (hs.symm.trans hstep)
    · exact absurd (nextTurn_eq_reset_iff.mp hturn) hreset

/-! ## A pending command -/

/-- Nothing but the host, the interleaving, ERR and the counter of free values differs: what the turns of the host can
change while a command is pending (R33, R42). -/
def ChangedByHost (s u : State) : Prop :=
  u = { s with host := u.host, sched := u.sched, err := u.err, freeCtr := u.freeCtr }

theorem ChangedByHost.trans {s t u : State} (hst : ChangedByHost s t) (htu : ChangedByHost t u) :
    ChangedByHost s u := by
  rw [ChangedByHost, htu, hst]

theorem ChangedByHost.busy {s u : State} (h : ChangedByHost s u) : u.busy = s.busy := by
  rw [h]

theorem ChangedByHost.lcmd {s u : State} (h : ChangedByHost s u) : u.lcmd = s.lcmd := by
  rw [h]

/-- While BUSY = 1 the host can change no more than this: its writes are discarded (R33). -/
theorem hostTurn_changedByHost {s t : State} (hbusy : s.busy = true) (hturn : hostTurn s = .next t) :
    ChangedByHost s t := by
  rcases hostTurn_cases hturn with rfl | ⟨a, v, h', rfl⟩ | ⟨h', rfl⟩ | ⟨a, h', rfl⟩
  · rfl
  · rcases hostWrite_cases a v s with ⟨_, h⟩ | h | ⟨hidle, _⟩ | ⟨hidle, _⟩ | ⟨hidle, _⟩
    · rw [h, raiseError_eq]
      rfl
    · rw [h]
      rfl
    all_goals exact absurd (hidle.symm.trans hbusy) Bool.false_ne_true
  · rfl
  · obtain ⟨n, hread⟩ := recordedRead_snd a s
    rw [hread]
    rfl

theorem hostTurn_sched {s t : State} (hturn : hostTurn s = .next t) : t.sched = s.sched := by
  rcases hostTurn_cases hturn with rfl | ⟨a, v, h', rfl⟩ | ⟨h', rfl⟩ | ⟨a, h', rfl⟩
  · rfl
  · obtain ⟨_, _, _, _, _, _, hsched, _⟩ := hostWrite_frame a v s
    exact hsched
  · rfl
  · obtain ⟨n, hread⟩ := recordedRead_snd a s
    rw [hread]
    rfl

theorem runSteps_succ {s t : State} (h : step s = .next t) (k : Nat) : runSteps (k + 1) s = runSteps k t := by
  rw [runSteps, h]

/-- The turns listed before the first of the engine or the reset input are the host's, and leave the command pending.
Where no such turn is listed, the engine moves in the end (log entry 4). -/
theorem exists_run_to_engine_or_reset {s : State} (hscript : scriptWellFormed s.host.script = true)
    (hbusy : s.busy = true) :
    ∃ k u, k ≤ s.sched.length ∧ runSteps k s = .next u ∧
      (u.engineNext ∨ (u.resetNext ∧ Turn.reset ∈ s.sched)) ∧ ChangedByHost s u := by
  induction hsched : s.sched generalizing s with
  | nil => exact ⟨0, s, le_rfl, rfl, .inl (.inr ⟨hsched, hbusy⟩), rfl⟩
  | cons turn rest ih =>
    have hhead : s.sched.head? = some turn := by rw [hsched]; rfl
    cases turn with
    | engine => exact ⟨0, s, Nat.zero_le _, rfl, .inl (.inl hhead), rfl⟩
    | reset => exact ⟨0, s, Nat.zero_le _, rfl, .inr ⟨hhead, List.mem_cons_self⟩, rfl⟩
    | host =>
      obtain ⟨t, hstep, hkeep⟩ := wellFormedScriptNeverStops s hscript
      have hturn : hostTurn s.afterTurn = .next t := (step_of_hostNext (.inl hhead)).symm.trans hstep
      have hmoved : ChangedByHost s t :=
        ChangedByHost.trans (t := s.afterTurn) rfl (hostTurn_changedByHost (s := s.afterTurn) hbusy hturn)
      have hrest : t.sched = rest := (hostTurn_sched hturn).trans (congrArg List.tail hsched)
      obtain ⟨k, u, hk, hrun, hnext, hchange⟩ := ih (hkeep ▸ hscript) (hmoved.busy.trans hbusy) hrest
      exact ⟨k + 1, u, Nat.succ_le_succ hk, (runSteps_succ hstep k).trans hrun,
        hnext.imp_right (And.imp_right (List.mem_cons_of_mem _)), hmoved.trans hchange⟩

/-- The engine's turn leaves no command pending (R176). -/
theorem engineTurn_clears_busy {s t : State} (hturn : engineTurn s = .next t) : t.busy = false := by
  rcases engineTurn_cases s with ⟨hidle, hs⟩ | ⟨_, i, _, hs⟩ | ⟨_, b, _, hs⟩ <;> rw [hs] at hturn
  · exact Host.Outcome.next.inj hturn ▸ hidle
  · rw [exec_eq_runChecked, finishCommand_next] at hturn
    exact Host.Outcome.next.inj hturn ▸ rfl
  · exact Host.Outcome.next.inj hturn ▸ rfl

/-- Settles O8: after the host's turns comes the engine's or the reset input's, and either ends with BUSY = 0. -/
theorem pendingCommandIsNotLeftPending : Obligations.PendingCommandIsNotLeftPending := by
  intro s hscript hbusy
  obtain ⟨k, u, hk, hrun, hnext, _⟩ := exists_run_to_engine_or_reset hscript hbusy
  have hdone : ∃ t, step u = .next t ∧ t.busy = false := by
    rcases hnext with hengine | ⟨hreset, _⟩
    · obtain ⟨t, ht, _⟩ := engineTurn_goesOn u.afterTurn
      exact ⟨t, (step_of_engineNext hengine).trans ht, engineTurn_clears_busy ht⟩
    · exact ⟨_, step_of_resetNext hreset, rfl⟩
  obtain ⟨t, hstep, hclear⟩ := hdone
  exact ⟨k + 1, t, Nat.succ_le_succ hk, runSteps_succ_last.mpr ⟨u, hrun, hstep⟩, hclear⟩

/-- Settles O58: with no reset turn listed the host's turns end at the engine's, and the opcode is still the one that
was pending. -/
theorem pendingCommandIsPerformed : Obligations.PendingCommandIsPerformed := by
  intro s hscript hbusy hreset
  obtain ⟨k, u, hk, hrun, hnext, hchange⟩ := exists_run_to_engine_or_reset hscript hbusy
  have hengine : u.engineNext := hnext.resolve_right fun ⟨_, hmem⟩ => hreset hmem
  have hpending : u.busy = true := hchange.busy.trans hbusy
  refine ⟨k, u, hk, hrun, hengine, hchange, fun i hdecode => ?command, fun hill => ?illegal⟩
  case command =>
    have hstep := step_of_command hengine hpending (hchange.lcmd ▸ hdecode)
    rw [exec_eq_runChecked, finishCommand_next] at hstep
    exact ⟨_, exec_eq_runChecked i u.afterTurn, runSteps_succ_last.mpr ⟨u, hrun, hstep⟩⟩
  case illegal =>
    exact runSteps_succ_last.mpr ⟨u, hrun, step_of_illegal hengine hpending (hchange.lcmd ▸ hill)⟩

/-! ## The end of a run -/

/-- Where no turn is the reset input's, the turn is the engine's or the host's (R43). -/
theorem engineNext_or_hostNext {s : State} (h : ¬ s.resetNext) : s.engineNext ∨ s.hostNext := by
  rcases step_cases s with ⟨hturn, _⟩ | ⟨hturn, _⟩ | ⟨hturn, _⟩
  · exact .inl (nextTurn_eq_engine_iff.mp hturn)
  · exact .inr (nextTurn_eq_host_iff.mp hturn)
  · exact absurd (nextTurn_eq_reset_iff.mp hturn) h

/-- Settles O59: the engine has no step, and the host's turn moves it among labels alone. -/
theorem endedRunIsFinal : Obligations.EndedRunIsFinal := by
  intro s hended hreset
  obtain ⟨hdone, hidle⟩ := (runEnded_iff s).mp hended
  rcases engineNext_or_hostNext hreset with hengine | hhost
  · exact ⟨s.afterTurn, idleEngineHasNoStep s hengine hidle, hended, observation_popTurn s⟩
  · obtain ⟨n, hturn, hdone'⟩ := hostTurn_of_done (s := s.afterTurn) hdone
    exact ⟨_, (step_of_hostNext hhost).trans hturn, (runEnded_iff _).mpr ⟨hdone', hidle⟩, rfl⟩

end Sys2Proof.Machine
end

section
/-! PROOFS. Where an error code comes from (R150, R152): the one step that takes ERR from 0 to a code meets that code's
cause, and a run that ends with a code has had that step. -/

namespace Sys2Proof.Machine

/-! ## The engine's codes -/

/-- A failing check is the cause R150 gives for its code. -/
theorem cause_of_firstError {i : Instr} {s : State} {c : ErrCode} (h : firstError (commandNeeds i) s = some c) :
    (c.code = 2 ∧ i ∈ keyCommands ∧ s.kvalid = false) ∨ (c.code = 3 ∧ i ∈ tableCommands ∧ s.tvalid = false) ∨
      (c.code = 4 ∧ i ∈ blockCommands ∧ s.bwr ≠ 0xFF) := by
  unfold firstError at h
  split_ifs at h with hkey htables hblock <;> obtain rfl := Option.some.inj h
  · exact .inl ⟨rfl, by simpa [commandNeeds] using hkey⟩
  · exact .inr (.inl ⟨rfl, by simpa [commandNeeds] using htables⟩)
  · exact .inr (.inr ⟨rfl, by simpa [commandNeeds, State.bvalid] using hblock⟩)

/-- A complete TBL_GEN leaves ERR alone (R80). -/
theorem generated_err (s : State) : s.generated.err = s.err := by
  simp only [State.generated, State.setRng_err, State.setTables_err]

/-- A TBL_GEN that changes ERR has met a draw out of range (R86). -/
theorem exists_draw_out_of_generate_err {s : State} (h : (generate s).err ≠ s.err) :
    ∃ n < Config.drawsPerGen, DrawsInRange s.rng n ∧ drawBound n < (drawAnswer s.rng n).toNat := by
  refine (drawsInRange_or_first_out s.rng).resolve_left fun hin => h ?_
  rw [generate_of_inRange hin, generated_err]

/-! ## The host's code -/

/-- A write that records an error is one to CMD, ARG or BLOCK with BUSY = 1, and the error is BUSY (R33). -/
theorem hostWrite_raises {s : State} (hzero : s.err = 0) {a : Addr} {v : Byte} (hraise : (hostWrite a v s).err ≠ 0) :
    (hostWrite a v s).err = 6 ∧ s.busy = true ∧
      (a.toNat ≤ 0x0001 ∨ (0x0008 ≤ a.toNat ∧ a.toNat < 0x0010)) := by
  have hwritable : a.toNat ≤ 0x0001 ∨ (0x0008 ≤ a.toNat ∧ a.toNat < 0x0010) := by
    by_contra hnot
    rw [hostWrite_readOnly (by omega)] at hraise
    exact hraise hzero
  rcases hostWrite_cases a v s with ⟨hbusy, hw⟩ | hw | ⟨_, hw⟩ | ⟨_, hw⟩ | ⟨_, p, _, hw⟩
  case inl =>
    rw [hw, raiseError_of_err_zero hzero]
    exact ⟨rfl, hbusy, hwritable⟩
  all_goals
    rw [hw] at hraise
    exact absurd hzero hraise

/-- A recorded read leaves ERR alone (R42). -/
theorem recordedRead_err (a : Addr) (s : State) : (recordedRead a s).2.err = s.err := by
  obtain ⟨n, hread⟩ := recordedRead_snd a s
  rw [hread]

theorem branchTo_err {l : Nat} {taken : Bool} {s t : State} (h : branchTo l taken s = .next t) : t.err = s.err := by
  unfold branchTo at h
  split at h
  · split at h
    · obtain rfl := Host.Outcome.next.inj h
      rfl
    · cases h
  · obtain rfl := Host.Outcome.next.inj h
    rfl

/-! ## The step that records an error -/

section Raised

variable {s t : State} (hzero : s.err = 0) (herr : t.err ≠ 0)

include hzero herr

/-- A turn of the engine that records an error meets its cause (R150, codes 1 to 5). -/
theorem engineRaises_of_step (hturn : s.engineNext) (hstep : step s = .next t) : s.engineRaises t.err := by
  rcases engineTurn_cases s.afterTurn with ⟨_, hs⟩ | ⟨hbusy, i, hdecode, hs⟩ | ⟨hbusy, b, hdecode, hs⟩
  all_goals
    rw [step_of_engineNext hturn, hs] at hstep
  · obtain rfl := Host.Outcome.next.inj hstep
    exact absurd hzero herr
  · refine ⟨hturn, hbusy, .inr ⟨i, hdecode, ?_⟩⟩
    rw [exec_eq_runChecked, finishCommand_next] at hstep
    obtain rfl := Host.Outcome.next.inj hstep
    rw [State.clearBusy_err] at herr ⊢
    rcases runChecked_cases (commandNeeds i) (commandEffect i) s.afterTurn with ⟨c, hfirst, hrun⟩ | ⟨_, hrun⟩
    all_goals
      rw [hrun] at herr ⊢
    · rw [raiseError_of_err_zero (s := s.afterTurn) hzero]
      exact (cause_of_firstError hfirst).imp_right (Or.imp_right .inl)
    · have hclear : i ≠ .errClear := by
        rintro rfl
        exact herr rfl
      rcases commandEffect_err hclear s.afterTurn with hsame | ⟨rfl, _, hrng⟩
      · exact absurd (hsame.trans hzero) herr
      · have hchange : (generate s.afterTurn).err ≠ s.afterTurn.err := fun h => herr (h.trans hzero)
        exact .inr (.inr (.inr ⟨hrng, rfl, exists_draw_out_of_generate_err (s := s.afterTurn) hchange⟩))
  · obtain ⟨_, hill⟩ := decode_eq_illegal_iff.mp hdecode
    rw [raiseError_of_err_zero (s := s.afterTurn) hzero] at hstep
    obtain rfl := Host.Outcome.next.inj hstep
    exact ⟨hturn, hbusy, .inl ⟨rfl, hill⟩⟩

/-- A turn of the host that records an error is such a write (R150, code 6). -/
theorem hostRaises_of_step (hturn : s.hostNext) (hstep : step s = .next t) : s.hostRaises t.err := by
  have hkept : t.err ≠ s.err := fun h => herr (h.trans hzero)
  by_cases hahead : s.host.failed = true ∨ s.host.script.length ≤ s.host.pos
  · rw [step_of_hostNext hturn, hostTurn_of_nothing_ahead (s := s.afterTurn) hahead] at hstep
    obtain rfl := Host.Outcome.next.inj hstep
    exact absurd rfl hkept
  · obtain ⟨hlive, hlen⟩ := not_or.mp hahead
    have hfailed : s.host.failed = false := Bool.eq_false_iff.mpr hlive
    have hst := List.getElem?_eq_getElem (Nat.lt_of_not_le hlen)
    generalize s.host.script[s.host.pos]'(Nat.lt_of_not_le hlen) = st at hst
    rw [step_at_stmt hturn hfailed hst] at hstep
    cases st with
    | wr a v =>
      rw [hostStmt_wr] at hstep
      obtain rfl := Host.Outcome.next.inj hstep
      obtain ⟨hcode, hbusy, haddr⟩ := hostWrite_raises (s := s.afterTurn) hzero herr
      exact ⟨hcode, hturn, hbusy, hfailed, .inr ⟨a, v, hst, haddr⟩⟩
    | cmd i =>
      rw [hostStmt_cmd, hostStmt_wr] at hstep
      obtain rfl := Host.Outcome.next.inj hstep
      obtain ⟨hcode, hbusy, _⟩ := hostWrite_raises (s := s.afterTurn) hzero herr
      exact ⟨hcode, hturn, hbusy, hfailed, .inl ⟨i, hst⟩⟩
    | label l =>
      obtain rfl := Host.Outcome.next.inj hstep
      exact absurd rfl hkept
    | rd a =>
      obtain rfl := Host.Outcome.next.inj hstep
      exact absurd (recordedRead_err a s.afterTurn) hkept
    | check =>
      obtain rfl := Host.Outcome.next.inj hstep
      exact absurd (recordedRead_err 0x0002 s.afterTurn) hkept
    | bnz l a mask => exact absurd ((branchTo_err hstep).trans (recordedRead_err a s.afterTurn)) hkept

/-- Whichever agent's turn it is, a step that records an error meets its cause; the reset input records none. -/
theorem raises_of_step (hstep : step s = .next t) : s.engineRaises t.err ∨ s.hostRaises t.err := by
  by_cases hreset : s.resetNext
  · rw [step_of_resetNext hreset] at hstep
    obtain rfl := Host.Outcome.next.inj hstep
    exact absurd rfl herr
  · exact (engineNext_or_hostNext hreset).imp (engineRaises_of_step hzero herr · hstep)
      (hostRaises_of_step hzero herr · hstep)

end Raised

/-- Settles O60, by induction on the run: its last step records the code, or finds it recorded already, in a run that is
shorter. -/
theorem runThatEndsInErrorHasHadIt : Obligations.RunThatEndsInErrorHasHadIt := by
  intro n
  induction n with
  | zero =>
    intro s t hrun hzero herr
    obtain rfl := Host.Outcome.next.inj hrun
    exact absurd hzero herr
  | succ n ih =>
    intro s t hrun hzero herr
    obtain ⟨u, hu, hstep⟩ := runSteps_succ_last.mp hrun
    by_cases hlast : u.err = 0
    · exact ⟨n, u, n.lt_succ_self, hu, hlast, raises_of_step hlast herr hstep⟩
    · have hsame : t.err = u.err := by
        by_contra hne
        exact herr (errIsSticky u t hstep hlast hne).1
      obtain ⟨k, w, hk, hw⟩ := ih s u hu hzero hlast
      exact ⟨k, w, hk.trans n.lt_succ_self, hsame ▸ hw⟩

end Sys2Proof.Machine
end
